-- ==== Sys2Proof/Word.lean ====
section
/-!
DEFINITION. The machine's words.

The 32-bit word of commands and registers is a `BitVec 32`. A bit string (the contents of a vector register, of a bank
row or of the codec accumulator) is a natural number: bit `j` is `Nat.testBit` of `j`, bit 0 the least significant
(00_scope.md R7). The width NMAX of a bit string is a parameter of the machine, which State carries (R6), so the width
is no part of the type: the invariant of Safety.lean says that no bit at or above DIM is set, as 10_state.md R27 does,
and R27 adds "A model may therefore store N-bit values". DESIGN CHOICE, safe: log entry 4.
-/

namespace Sys2Proof

/-- The 32-bit word of command words, scalar registers and host-readable registers (XLEN = 32, 00_scope.md R6). -/
abbrev Word := BitVec 32

end Sys2Proof
end

