-- ==== Sys2Proof/Syntax.lean ====
section
/-!
DEFINITION. The 16 commands of 30_encoding.md R77 and spec/opcode_table.json, one constructor each.
-/

namespace Sys2Proof

/-- The number of a vector register V0..V7 (30_encoding.md R75). -/
abbrev VReg := BitVec 3

/-- The number of a scalar register S0..S3 (R75). -/
abbrev SReg := BitVec 2

/-- A bank code: 0 = A, 1 = B, 2 = C; code 3 names no bank (R75, R80; 10_state.md R23). -/
abbrev BankCode := BitVec 2

/-- A command with its operand fields, in the order of its assembler form (R84). -/
inductive Instr where
  /-- R100: no operation. -/
  | nop
  /-- R101: soft reset. -/
  | srst
  /-- R102: start a test case of dimension `imm`. -/
  | setdim (imm : BitVec 16)
  /-- R103: load a scalar register with a zero-extended constant. -/
  | sets (sd : SReg) (imm : BitVec 16)
  /-- R121: clear the codec. -/
  | crst
  /-- R122: append one hexadecimal digit, given by its character code, to the codec. -/
  | chex (ch : BitVec 8)
  /-- R124: decode the codec's digits into a vector register. -/
  | cdec (vd : VReg)
  /-- R141: write a vector register into row `S[sa]` of a bank. -/
  | mwr (mb : BankCode) (sa : SReg) (va : VReg)
  /-- R142: read row `S[sa]` of a bank into a vector register. -/
  | mrd (vd : VReg) (mb : BankCode) (sa : SReg)
  /-- R143: matrix times column vector. -/
  | mvc (vd : VReg) (mb : BankCode) (va : VReg)
  /-- R146: row vector times matrix. -/
  | vmr (vd : VReg) (va : VReg) (mb : BankCode)
  /-- R160: bitwise AND. -/
  | vand (vd va vb : VReg)
  /-- R161: bitwise XOR. -/
  | vxor (vd va vb : VReg)
  /-- R162: popcount, with its parity and zero test in the flags. -/
  | vpop (sd : SReg) (va : VReg)
  /-- R163: read raw bit `S[sa]` of a vector register. -/
  | vbit (sd : SReg) (va : VReg) (sa : SReg)
  /-- R164: natural index of the first difference of two vector registers. -/
  | vdiff (sd : SReg) (va vb : VReg)
  deriving DecidableEq, Repr

end Sys2Proof
end

