-- ==== Sys2Proof/WellFormed.lean ====
section
/-!
DEFINITION. Which terms of the syntax are commands: those that name a bank name bank A, B or C.
-/

namespace Sys2Proof

/-- A bank code that names a bank: code 3 does not (30_encoding.md R80, 10_state.md R23). -/
def namesBank (mb : BankCode) : Bool := mb != 3

/-- The check of 30_encoding.md R77: "for the commands that use `mb`, `mb ≠ 3`". Every other operand field of the
syntax has exactly the width of its field of the encoding, so there is nothing more to check. -/
def Instr.wellFormed : Instr → Bool
  | .mwr mb _ _ | .mrd _ mb _ | .mvc _ mb _ | .vmr _ _ mb => namesBank mb
  | .nop | .srst | .setdim _ | .sets _ _ | .crst | .chex _ | .cdec _
  | .vand _ _ _ | .vxor _ _ _ | .vpop _ _ | .vbit _ _ _ | .vdiff _ _ _ => true

end Sys2Proof
end

