-- ==== Sys2Proof/Decode.lean ====
section
/-!
DEFINITION. Command words: the decoder of 30_encoding.md R83, total on 32-bit words and rejecting by name, and the
encoder written from the formats R71 to R74.
-/

namespace Sys2Proof

/-- Why a word spells no command. All three raise E_ILLEGAL (60_exceptions.md R180). -/
inductive Illegal where
  /-- R79: the opcode is reserved. -/
  | reservedOpcode
  /-- R78: an unused field is not 0. -/
  | unusedField
  /-- R80: the bank code is 3. -/
  | reservedBank
  deriving DecidableEq, Repr

/-! The fields of a word, cut at the bit positions of R71 to R74. -/

/-- Nat 31:26 in every format (R70). -/
def opcodeField (w : Word) : BitVec 6 := w.extractLsb' 26 6

/-- Nat 25:23 of format V (R74). -/
def vdField (w : Word) : VReg := w.extractLsb' 23 3

/-- Nat 22:20 of format V (R74). -/
def vaField (w : Word) : VReg := w.extractLsb' 20 3

/-- Nat 19:17 of format V (R74). -/
def vbField (w : Word) : VReg := w.extractLsb' 17 3

/-- Nat 16:15 of format V (R74). -/
def mbField (w : Word) : BankCode := w.extractLsb' 15 2

/-- Nat 14:13 of format V (R74). -/
def sdField (w : Word) : SReg := w.extractLsb' 13 2

/-- Nat 12:11 of format V (R74). -/
def saField (w : Word) : SReg := w.extractLsb' 11 2

/-- Nat 17:16 of format I (R72). -/
def sdFieldI (w : Word) : SReg := w.extractLsb' 16 2

/-- Nat 15:0 of format I (R72, R76). -/
def immField (w : Word) : BitVec 16 := w.extractLsb' 0 16

/-- Nat 7:0 of format C (R73, R76). -/
def chField (w : Word) : BitVec 8 := w.extractLsb' 0 8

/-- The last two tests of R83: the bits outside the command's fields are those of its `match` word, and a bank code is
not 3. -/
def accept (w matchWord mask : Word) (i : Instr) : Except Illegal Instr :=
  if w &&& mask = matchWord then
    if i.wellFormed then .ok i else .error .reservedBank
  else .error .unusedField

/-- `decode(w)` of R83, with the rows of R77. -/
def decode (w : Word) : Except Illegal Instr :=
  match (opcodeField w).toNat with
  | 0x00 => accept w 0x00000000 0xFFFFFFFF .nop
  | 0x01 => accept w 0x04000000 0xFFFFFFFF .srst
  | 0x02 => accept w 0x08000000 0xFFFF0000 (.setdim (immField w))
  | 0x03 => accept w 0x0C000000 0xFFFC0000 (.sets (sdFieldI w) (immField w))
  | 0x04 => accept w 0x10000000 0xFFFFFFFF .crst
  | 0x05 => accept w 0x14000000 0xFFFFFF00 (.chex (chField w))
  | 0x06 => accept w 0x18000000 0xFC7FFFFF (.cdec (vdField w))
  | 0x08 => accept w 0x20000000 0xFF8E67FF (.mwr (mbField w) (saField w) (vaField w))
  | 0x09 => accept w 0x24000000 0xFC7E67FF (.mrd (vdField w) (mbField w) (saField w))
  | 0x0A => accept w 0x28000000 0xFC0E7FFF (.mvc (vdField w) (mbField w) (vaField w))
  | 0x0B => accept w 0x2C000000 0xFC0E7FFF (.vmr (vdField w) (vaField w) (mbField w))
  | 0x10 => accept w 0x40000000 0xFC01FFFF (.vand (vdField w) (vaField w) (vbField w))
  | 0x11 => accept w 0x44000000 0xFC01FFFF (.vxor (vdField w) (vaField w) (vbField w))
  | 0x12 => accept w 0x48000000 0xFF8F9FFF (.vpop (sdField w) (vaField w))
  | 0x13 => accept w 0x4C000000 0xFF8F87FF (.vbit (sdField w) (vaField w) (saField w))
  | 0x14 => accept w 0x50000000 0xFF819FFF (.vdiff (sdField w) (vaField w) (vbField w))
  | _ => .error .reservedOpcode

/-- The command a word spells, where it spells one. -/
def decodeInstr (w : Word) : Option Instr :=
  match decode w with
  | .ok i => some i
  | .error _ => none

/-- The decoder on an instruction numbered as spec/opcode_table.json numbers it: one 32-bit word (R70), the bits above
`nbits` being 0. A command word is a whole 32-bit value on the port and has no byte order (20_memory.md R55). -/
def decodeTableWord (nbits w : Nat) : Option Instr :=
  decodeInstr (BitVec.ofNat 32 (w % 2 ^ nbits))

/-! The encoder. -/

/-- Format N (R71): bits 31:26 the opcode, 25:0 zero. -/
def formatN (opcode : BitVec 6) : Word := opcode ++ 0#26

/-- Format I (R72): opcode, 25:18 zero, 17:16 sd, 15:0 imm16. -/
def formatI (opcode : BitVec 6) (sd : SReg) (imm : BitVec 16) : Word := opcode ++ 0#8 ++ sd ++ imm

/-- Format C (R73): opcode, 25:8 zero, 7:0 ch. -/
def formatC (opcode : BitVec 6) (ch : BitVec 8) : Word := opcode ++ 0#18 ++ ch

/-- Format V (R74): opcode, 25:23 vd, 22:20 va, 19:17 vb, 16:15 mb, 14:13 sd, 12:11 sa, 10:0 zero. -/
def formatV (opcode : BitVec 6) (vd va vb : VReg) (mb : BankCode) (sd sa : SReg) : Word :=
  opcode ++ vd ++ va ++ vb ++ mb ++ sd ++ sa ++ 0#11

/-- The word of a command (R71 to R77). On a term that is not well-formed it gives the word with bank code 3, which R80
calls illegal. -/
def encode : Instr → Word
  | .nop => formatN 0x00
  | .srst => formatN 0x01
  | .setdim imm => formatI 0x02 0 imm
  | .sets sd imm => formatI 0x03 sd imm
  | .crst => formatN 0x04
  | .chex ch => formatC 0x05 ch
  | .cdec vd => formatV 0x06 vd 0 0 0 0 0
  | .mwr mb sa va => formatV 0x08 0 va 0 mb 0 sa
  | .mrd vd mb sa => formatV 0x09 vd 0 0 mb 0 sa
  | .mvc vd mb va => formatV 0x0A vd va 0 mb 0 0
  | .vmr vd va mb => formatV 0x0B vd va 0 mb 0 0
  | .vand vd va vb => formatV 0x10 vd va vb 0 0 0
  | .vxor vd va vb => formatV 0x11 vd va vb 0 0 0
  | .vpop sd va => formatV 0x12 0 va 0 0 sd 0
  | .vbit sd va sa => formatV 0x13 0 va 0 0 sd sa
  | .vdiff sd va vb => formatV 0x14 0 va vb 0 sd 0

end Sys2Proof
end

