-- ==== Sys2Proof/Config.lean ====
section
/-!
DEFINITION. What a build of the block fixes: the parameter NMAX (00_scope.md R6, 92_eei_decisions.md D3), left open.
-/

namespace Sys2Proof

/-- The largest value NMAX may have (R6: "integer with 1 ≤ NMAX ≤ 4096"). -/
def Config.nmaxLimit : Nat := 4096

/-- NMAX less one, with no value: the spec leaves NMAX OPEN (D3). DESIGN CHOICE, safe: log
entry 1. -/
opaque Config.nmaxLessOne : Fin 4096

/-- The parameter NMAX of the build that `State.reset` describes: some number from 1 to 4096. -/
def Config.nmax : Nat := Config.nmaxLessOne.val + 1

end Sys2Proof
end

