-- ==== Sys2Proof/Machine/State.lean ====
section
/-!
DEFINITION. The state of the block (10_state.md), as plain data, and its value after reset.
-/

namespace Sys2Proof.Machine

/-- The error codes 1 to 6 of 60_exceptions.md R180. Codes 7 to 15 are never raised, so they have no
constructor (I16). DEDUCED, safe: log entry 11. -/
inductive ErrorCode where
  /-- E_ILLEGAL: the word spells no command. -/
  | illegal
  /-- E_DIMRANGE: SETDIM with imm16 = 0 or imm16 > NMAX. -/
  | dimRange
  /-- E_NODIM: a command that needs N while DIM = 0. -/
  | noDim
  /-- E_HEX: a character that is no hex digit. -/
  | hex
  /-- E_LEN: more than MAXDIG(N) digits in one row-string. -/
  | len
  /-- E_IDX: a row or bit index `S[sa] ≥ DIM`. -/
  | idx
  deriving DecidableEq, Repr

/-- The three matrix banks (10_state.md R23). -/
inductive Bank where
  | bankA
  | bankB
  | bankC
  deriving DecidableEq, Repr

/-- The matrix row space (20_memory.md R50): for each bank the rows that are not 0, as (row number, row) pairs with the
row numbers strictly rising. A row that is not listed is 0, its reset value (R36). DESIGN CHOICE, safe:
log entry 3. -/
structure Memory where
  rowsA : List (Nat × Nat)
  rowsB : List (Nat × Nat)
  rowsC : List (Nat × Nat)
  deriving DecidableEq, Repr

/-- What the host can do to the block (70_reset_and_hazards.md R220), reads apart, which change nothing. -/
inductive HostInput where
  /-- One word written to the command port (30_encoding.md R70). -/
  | submit (w : Word)
  /-- The hardware reset input (R210). -/
  | reset
  deriving DecidableEq, Repr

/-- The state of the block between commands. -/
structure State where
  /-- NMAXR: the parameter NMAX (R6, R33), constant. -/
  nmax : Nat
  /-- DIM: the current dimension N, 0 when none is configured (R21). -/
  dim : Nat
  /-- V0..V7, NMAX bits each (R22). -/
  v : Vector Nat 8
  /-- The banks A, B, C (R23). -/
  mem : Memory
  /-- S0..S3 (R24). -/
  sreg : Vector Word 4
  /-- The zero flag (R25). -/
  z : Bool
  /-- The parity flag (R25). -/
  p : Bool
  /-- CACC: the value of the hex digits received, 4*ceil(NMAX/4) bits (R26). -/
  cacc : Nat
  /-- CCNT: the number of digits received (R26). -/
  ccnt : Nat
  /-- ERR: the block is halted by an error (R28). -/
  err : Bool
  /-- ECODE: the error that set ERR; `none` is code 0, no error since reset (R28, R180). -/
  ecode : Option ErrorCode
  /-- EWORD: the word that raised the error (R28). -/
  eword : Word
  /-- ECNT: CMDCNT when that word was submitted (R28). -/
  ecnt : Word
  /-- CMDCNT: submitted words since reset, modulo 2^32 (R29). -/
  cmdcnt : Word
  /-- What the host has sent and the block has not handled yet, oldest first: the command stream "the environment
  supplies" (R20). The model's own field, no register of the block. DESIGN CHOICE: log entry 2. -/
  input : List HostInput
  deriving DecidableEq, Repr

/-- Why a step could fault: there is no reason. Every submitted word has a defined effect (R220), and an error of
60_exceptions.md R180 is a next state, so nothing raises a fault. Safe: no behaviour is left out by stopping. -/
inductive Fault where
  deriving DecidableEq, Repr

/-- Why an instruction could be refused. -/
inductive Refusal where
  /-- An instruction with no meaning yet, rejected by its arm of `exec`. Every instruction has its meaning, so nothing
  raises it. Safe: a refusal proves nothing about the hardware. -/
  | notModelled (mnemonic : String)
  deriving DecidableEq, Repr

/-- No row holds a bit: the banks after reset (R36). -/
def Memory.empty : Memory := { rowsA := [], rowsB := [], rowsC := [] }

/-- The reset values of 10_state.md R36 for a block built with the given NMAX. -/
def State.resetFor (nmax : Nat) : State :=
  { nmax := nmax
    dim := 0
    v := Vector.replicate 8 0
    mem := Memory.empty
    sreg := Vector.replicate 4 0
    z := false
    p := false
    cacc := 0
    ccnt := 0
    err := false
    ecode := none
    eword := 0
    ecnt := 0
    cmdcnt := 0
    input := [] }

/-- The state after reset, and so after power-up (R36, R212, D34; DEDUCED, log entry 6), for the build's NMAX; nothing
submitted yet. -/
def State.reset : State := State.resetFor Config.nmax

end Sys2Proof.Machine
end

