-- ==== Sys2Proof/Machine/Ops.lean ====
section
/-!
DEFINITION. The named operations of the block: bit strings (00_scope.md), the row space (20_memory.md R52), the codec
(41_codec.md), the vector products (42_gf2.md), the scan (43_bitvector.md R164), error entry (60_exceptions.md R184) and
reset (70_reset_and_hazards.md R211).
-/

namespace Sys2Proof.Machine

/-! ## Bit strings -/

/-- `mask_N(v)`: `v` with bits N and up forced to 0 (R13). -/
def maskBits (n : Nat) (x : Nat) : Nat := x % 2 ^ n

/-- The reversed-index map `rev_N(j) = N − j − 1`, for `j < N` (R8). -/
def revIndex (n j : Nat) : Nat := n - j - 1

/-- `v[i] <- b` on a bit string. -/
def setBit (x : Nat) (i : Nat) (b : Bool) : Nat :=
  if x.testBit i = b then x else x ^^^ 2 ^ i

/-- `popcount_n(v)`: the number of positions `j < n` with `v[j] = 1` (R11). -/
def popcount : Nat → Nat → Nat
  | 0, _ => 0
  | n + 1, x => popcount n x + (x.testBit n).toNat

/-- `parity_n(v) = popcount_n(v) mod 2` (R11). -/
def parity (n : Nat) (x : Nat) : Bool := popcount n x % 2 == 1

/-- `r <- 0; for i in 0..n-1: r[pos(i)] <- bit(i)`: the result loop of CDEC (R124) and MVC (R143). -/
def placeBits (pos : Nat → Nat) (bit : Nat → Bool) : Nat → Nat
  | 0 => 0
  | n + 1 => setBit (placeBits pos bit n) (pos n) (bit n)

/-- `min { j < n : t[j] == 1 }`, where there is one: the scan of VDIFF (R164). -/
def lowestSet : Nat → Nat → Option Nat
  | 0, _ => none
  | n + 1, t => (lowestSet n t).or (if t.testBit n then some n else none)

/-! ## The row space -/

/-- The row a bank holds at a row number: an unlisted row is 0 (R36). -/
def readRow : List (Nat × Nat) → Nat → Nat
  | [], _ => 0
  | (k, x) :: rest, r => if k = r then x else readRow rest r

/-- A listing of one row, in the canonical form: a row of 0 is not listed. -/
def listRow (r : Nat) (x : Nat) (rest : List (Nat × Nat)) : List (Nat × Nat) :=
  if x = 0 then rest else (r, x) :: rest

/-- A bank after the row with a row number is written, in the canonical form. -/
def writeRow : List (Nat × Nat) → Nat → Nat → List (Nat × Nat)
  | [], r, x => listRow r x []
  | (k, y) :: rest, r, x =>
    if r < k then listRow r x ((k, y) :: rest)
    else if r = k then listRow r x rest
    else (k, y) :: writeRow rest r x

/-- The listed rows of a bank. -/
def bankRows (m : Memory) : Bank → List (Nat × Nat)
  | .bankA => m.rowsA
  | .bankB => m.rowsB
  | .bankC => m.rowsC

/-- `MatRead(b, r)` (R52): a whole row. -/
def matRead (m : Memory) (b : Bank) (r : Nat) : Nat := readRow (bankRows m b) r

/-- `Row(b, r) <- x` on a bank's whole row. -/
def storeRow (m : Memory) (b : Bank) (r : Nat) (x : Nat) : Memory :=
  match b with
  | .bankA => { m with rowsA := writeRow m.rowsA r x }
  | .bankB => { m with rowsB := writeRow m.rowsB r x }
  | .bankC => { m with rowsC := writeRow m.rowsC r x }

/-- `MatWrite(b, r, v)` (R52): `Row(b, r) <- mask_N(v)` with N = DIM. -/
def matWrite (s : State) (b : Bank) (r : Nat) (x : Nat) : State :=
  { s with mem := storeRow s.mem b r (maskBits s.dim x) }

/-- The canonical form of a bank's list: row numbers strictly rising from `low` on, and no row listed that is 0. -/
def rowsWf (low : Nat) : List (Nat × Nat) → Bool
  | [] => true
  | (k, x) :: rest => decide (low ≤ k) && x != 0 && rowsWf (k + 1) rest

/-- The canonical form of the row space, so that equal contents are equal data. -/
def Memory.wf (m : Memory) : Bool := rowsWf 0 m.rowsA && rowsWf 0 m.rowsB && rowsWf 0 m.rowsC

/-! ## The codec -/

/-- `MAXDIG(N) = ceil(N/4)` (R12). -/
def maxDig (n : Nat) : Nat := (n + 3) / 4

/-- The padding shift `sh(N) = (4 − N mod 4) mod 4` (R12). -/
def padShift (n : Nat) : Nat := (4 - n % 4) % 4

/-- The value of a hex digit code (R123): 0x30..0x39 and 0x41..0x46 only. -/
def hexVal (ch : BitVec 8) : Option Nat :=
  if 0x30 ≤ ch.toNat ∧ ch.toNat ≤ 0x39 then some (ch.toNat - 0x30)
  else if 0x41 ≤ ch.toNat ∧ ch.toNat ≤ 0x46 then some (ch.toNat - 0x41 + 10)
  else none

/-- `CACC <- (CACC << 4) OR digit` at the accumulator's width 4*ceil(NMAX/4) (R122, R26). -/
def appendDigit (nmax : Nat) (acc : Nat) (digit : Nat) : Nat :=
  maskBits (4 * maxDig nmax) (acc <<< 4 ||| digit)

/-- The decoded vector of CDEC (R124): `for j in 0..N-1: r[j] <- CACC[j + sh(N)]`. -/
def decodeDigits (n : Nat) (acc : Nat) : Nat :=
  placeBits (fun j => j) (fun j => acc.testBit (j + padShift n)) n

/-- `CACC <- 0; CCNT <- 0` (R121). -/
def clearCodec (s : State) : State := { s with cacc := 0, ccnt := 0 }

/-! ## The vector products -/

/-- The loop of MVC (R143): for each row `i`, `r[N-1-i] <- parity_N(MatRead(b, i) AND x)`. -/
def matVec (m : Memory) (b : Bank) (n : Nat) (x : Nat) : Nat :=
  placeBits (revIndex n) (fun i => parity n (matRead m b i &&& x)) n

/-- The first `k` rounds of the loop of VMR (R146): `if y[i] == 1: acc <- acc XOR MatRead(b, N-1-i)`. -/
def accumulateRows (m : Memory) (b : Bank) (n : Nat) (y : Nat) : Nat → Nat
  | 0 => 0
  | i + 1 =>
    if y.testBit i then accumulateRows m b n y i ^^^ matRead m b (revIndex n i)
    else accumulateRows m b n y i

/-- The loop of VMR (R146), all N rounds. -/
def vecMat (m : Memory) (b : Bank) (n : Nat) (y : Nat) : Nat := accumulateRows m b n y n

/-! ## Errors and reset -/

/-- `error_entry(code, w)` (R184). -/
def errorEntry (code : ErrorCode) (w : Word) (s : State) : State :=
  { s with err := true, ecode := some code, eword := w, ecnt := s.cmdcnt }

/-- What a command does once its checks are made, in the order of R182: the first error it raises is taken with the
command's own word, and nothing else it would write is written (R184); with no error it takes its effect. The word of a
command is its encoding (DEDUCED, safe: log entry 5). -/
def complete (i : Instr) (check : Option ErrorCode) (s effect : State) :
    Host.Outcome State Fault Refusal :=
  .next (match check with
    | some code => errorEntry code (encode i) s
    | none => effect)

/-- Reset (R211): every piece of state at its value of R36, NMAX kept. What the host has yet to send stays with the
host (DESIGN CHOICE: log entry 2). -/
def resetBlock (s : State) : State := { State.resetFor s.nmax with input := s.input }

/-- What SETDIM clears (R102): the vector registers, the banks and the codec. -/
def clearCase (s : State) : State :=
  clearCodec { s with v := Vector.replicate 8 0, mem := Memory.empty }

/-- `CMDCNT <- CMDCNT + 1 mod 2^32` (R183). -/
def countWord (s : State) : State := { s with cmdcnt := s.cmdcnt + 1 }

end Sys2Proof.Machine
end

