-- ==== Sys2Proof/Machine/Operands.lean ====
section
/-!
DEFINITION. The operand forms: vector and scalar registers, bank codes, row and bit indices, and the checks a command
makes on its operands before it writes anything.
-/

namespace Sys2Proof.Machine

/-- `V[i]` (00_scope.md R13). -/
def readV (s : State) (i : VReg) : Nat := s.v[i.toNat]'i.isLt

/-- `V[i] <- x` (R13). -/
def writeV (s : State) (i : VReg) (x : Nat) : State := { s with v := s.v.set i.toNat x i.isLt }

/-- `S[i]` (R13). -/
def readS (s : State) (i : SReg) : Word := s.sreg[i.toNat]'i.isLt

/-- `S[i] <- x` (R13). -/
def writeS (s : State) (i : SReg) (x : Word) : State := { s with sreg := s.sreg.set i.toNat x i.isLt }

/-- `zext_32` of a small unsigned number (R7). -/
def zext32 (n : Nat) : Word := BitVec.ofNat 32 n

/-- The bank a bank code names (30_encoding.md R75); code 3 names none (R80). -/
def bankOf (mb : BankCode) : Option Bank :=
  match mb.toNat with
  | 0 => some .bankA
  | 1 => some .bankB
  | 2 => some .bankC
  | _ => none

/-- A row or bit index: the value of `S[sa]`, unsigned on all 32 bits (43_bitvector.md R166). -/
def readIndex (s : State) (sa : SReg) : Nat := (readS s sa).toNat

/-- E_NODIM while DIM = 0 (60_exceptions.md R181). -/
def checkDim (s : State) : Option ErrorCode := if s.dim = 0 then some .noDim else none

/-- E_IDX for an index at or above DIM (20_memory.md R51). -/
def checkIndex (s : State) (sa : SReg) : Option ErrorCode :=
  if s.dim ≤ readIndex s sa then some .idx else none

/-- A command with a bank operand: code 3 raises E_ILLEGAL before every other check (R80, R182). DESIGN CHOICE,
safe: log entry 9. -/
def withBank (i : Instr) (mb : BankCode) (s : State)
    (run : Bank → Host.Outcome State Fault Refusal) : Host.Outcome State Fault Refusal :=
  match bankOf mb with
  | some b => run b
  | none => complete i (some .illegal) s s

end Sys2Proof.Machine
end

