-- ==== Sys2Proof/Machine/Codec.lean ====
section
/-!
DEFINITION. The hex row-string codec commands CRST, CHEX, CDEC (41_codec.md).
-/

namespace Sys2Proof.Machine

/-- CRST (R121). -/
def execCrst (s : State) : Host.Outcome State Fault Refusal := complete .crst none s (clearCodec s)

/-- E_HEX for a code that is no hex digit (R122, R123). -/
def checkHex (ch : BitVec 8) : Option ErrorCode := if (hexVal ch).isNone then some .hex else none

/-- E_LEN for a digit beyond MAXDIG(DIM) (R122). -/
def checkLen (s : State) : Option ErrorCode := if s.ccnt = maxDig s.dim then some .len else none

/-- CHEX (R122). -/
def execChex (ch : BitVec 8) (s : State) : Host.Outcome State Fault Refusal :=
  complete (.chex ch) (((checkDim s).or (checkHex ch)).or (checkLen s)) s
    { s with cacc := appendDigit s.nmax s.cacc ((hexVal ch).getD 0), ccnt := s.ccnt + 1 }

/-- CDEC (R124). -/
def execCdec (vd : VReg) (s : State) : Host.Outcome State Fault Refusal :=
  complete (.cdec vd) (checkDim s) s (clearCodec (writeV s vd (decodeDigits s.dim s.cacc)))

end Sys2Proof.Machine
end

