-- ==== Sys2Proof/Machine/Control.lean ====
section
/-!
DEFINITION. The control commands NOP, SRST, SETDIM, SETS (40_control.md).
-/

namespace Sys2Proof.Machine

/-- NOP (R100). -/
def execNop (s : State) : Host.Outcome State Fault Refusal := complete .nop none s s

/-- SRST (R101): exactly the reset of R211. -/
def execSrst (s : State) : Host.Outcome State Fault Refusal := complete .srst none s (resetBlock s)

/-- E_DIMRANGE for a dimension of 0 or above NMAX (R102). -/
def checkDimRange (s : State) (imm : BitVec 16) : Option ErrorCode :=
  if imm.toNat = 0 then some .dimRange
  else if s.nmax < imm.toNat then some .dimRange
  else none

/-- SETDIM (R102): S0..S3, Z, P and the error fields keep their values. -/
def execSetdim (imm : BitVec 16) (s : State) : Host.Outcome State Fault Refusal :=
  complete (.setdim imm) (checkDimRange s imm) s (clearCase { s with dim := imm.toNat })

/-- SETS (R103): the constant is zero-extended. -/
def execSets (sd : SReg) (imm : BitVec 16) (s : State) : Host.Outcome State Fault Refusal :=
  complete (.sets sd imm) none s (writeS s sd (zext32 imm.toNat))

end Sys2Proof.Machine
end

