-- ==== Sys2Proof/Machine/Gf2.lean ====
section
/-!
DEFINITION. The row mux MWR, MRD and the products MVC, VMR over GF(2) (42_gf2.md).
-/

namespace Sys2Proof.Machine

/-- MWR (R141): the row index is natural. -/
def execMwr (mb : BankCode) (sa : SReg) (va : VReg) (s : State) : Host.Outcome State Fault Refusal :=
  withBank (.mwr mb sa va) mb s fun bank =>
    complete (.mwr mb sa va) ((checkDim s).or (checkIndex s sa)) s
      (matWrite s bank (readIndex s sa) (readV s va))

/-- MRD (R142). -/
def execMrd (vd : VReg) (mb : BankCode) (sa : SReg) (s : State) : Host.Outcome State Fault Refusal :=
  withBank (.mrd vd mb sa) mb s fun bank =>
    complete (.mrd vd mb sa) ((checkDim s).or (checkIndex s sa)) s
      (writeV s vd (matRead s.mem bank (readIndex s sa)))

/-- MVC (R143): `multiplyMatrixColumn`. -/
def execMvc (vd : VReg) (mb : BankCode) (va : VReg) (s : State) : Host.Outcome State Fault Refusal :=
  withBank (.mvc vd mb va) mb s fun bank =>
    complete (.mvc vd mb va) (checkDim s) s (writeV s vd (matVec s.mem bank s.dim (readV s va)))

/-- VMR (R146): `multiplyRowMatrix`. -/
def execVmr (vd va : VReg) (mb : BankCode) (s : State) : Host.Outcome State Fault Refusal :=
  withBank (.vmr vd va mb) mb s fun bank =>
    complete (.vmr vd va mb) (checkDim s) s (writeV s vd (vecMat s.mem bank s.dim (readV s va)))

end Sys2Proof.Machine
end

