-- ==== Sys2Proof/Machine/Flags.lean ====
section
/-!
DEFINITION. The flags Z and P (10_state.md R25) and the STATUS register that holds them (R32).
-/

namespace Sys2Proof.Machine

/-- The flags VPOP writes from its count (43_bitvector.md R162): Z the zero test, P the count modulo 2. -/
def writeCountFlags (s : State) (count : Nat) : State :=
  { s with z := count == 0, p := count % 2 == 1 }

/-- The flag VDIFF writes (R164): Z = 1 when no bit differs; P keeps its value. -/
def writeZ (s : State) (zero : Bool) : State := { s with z := zero }

/-- The number of an error code (60_exceptions.md R180); 0 is no error since reset. -/
def codeNumber : Option ErrorCode → BitVec 4
  | none => 0
  | some .illegal => 1
  | some .dimRange => 2
  | some .noDim => 3
  | some .hex => 4
  | some .len => 5
  | some .idx => 6

/-- STATUS (R32): 31:8 zero, 7:4 ECODE, 3 zero, 2 P, 1 Z, 0 ERR. -/
def statusWord (s : State) : Word :=
  0#24 ++ codeNumber s.ecode ++ 0#1 ++ BitVec.ofBool s.p ++ BitVec.ofBool s.z ++ BitVec.ofBool s.err

end Sys2Proof.Machine
end

