-- ==== Sys2Proof/Machine/VectorOps.lean ====
section
/-!
DEFINITION. The bit-vector commands VAND, VXOR, VPOP, VBIT, VDIFF (43_bitvector.md).
-/

namespace Sys2Proof.Machine

/-- VAND (R160). -/
def execVand (vd va vb : VReg) (s : State) : Host.Outcome State Fault Refusal :=
  complete (.vand vd va vb) (checkDim s) s (writeV s vd (readV s va &&& readV s vb))

/-- VXOR (R161). -/
def execVxor (vd va vb : VReg) (s : State) : Host.Outcome State Fault Refusal :=
  complete (.vxor vd va vb) (checkDim s) s (writeV s vd (readV s va ^^^ readV s vb))

/-- VPOP (R162). -/
def execVpop (sd : SReg) (va : VReg) (s : State) : Host.Outcome State Fault Refusal :=
  let count := popcount s.dim (readV s va)
  complete (.vpop sd va) (checkDim s) s (writeCountFlags (writeS s sd (zext32 count)) count)

/-- VBIT (R163): the index is the raw bit position. -/
def execVbit (sd : SReg) (va : VReg) (sa : SReg) (s : State) : Host.Outcome State Fault Refusal :=
  complete (.vbit sd va sa) ((checkDim s).or (checkIndex s sa)) s
    (writeS s sd (zext32 ((readV s va).testBit (readIndex s sa)).toNat))

/-- What VDIFF writes to S[sd] (R164): the natural index of the lowest difference, or 0xFFFFFFFF. -/
def diffIndex (n : Nat) (found : Option Nat) : Word :=
  match found with
  | some d => zext32 (revIndex n d)
  | none => 0xFFFFFFFF

/-- VDIFF (R164). -/
def execVdiff (sd : SReg) (va vb : VReg) (s : State) : Host.Outcome State Fault Refusal :=
  let found := lowestSet s.dim (readV s va ^^^ readV s vb)
  complete (.vdiff sd va vb) (checkDim s) s
    (writeZ (writeS s sd (diffIndex s.dim found)) found.isNone)

end Sys2Proof.Machine
end

