-- ==== Sys2Proof/Machine/Dispatch.lean ====
section
/-!
DEFINITION. One arm per command: its rule, run with errors taken (60_exceptions.md R183, R184). The count of the word
and the halted state are the command step's (Command.lean).
-/

namespace Sys2Proof.Machine

def exec (i : Instr) (s : State) : Host.Outcome State Fault Refusal :=
  match i with
  -- 40_control.md
  | .nop => Sys2Proof.Machine.execNop s
  | .srst => Sys2Proof.Machine.execSrst s
  | .setdim imm => Sys2Proof.Machine.execSetdim imm s
  | .sets sd imm => Sys2Proof.Machine.execSets sd imm s
  -- 41_codec.md
  | .crst => Sys2Proof.Machine.execCrst s
  | .chex ch => Sys2Proof.Machine.execChex ch s
  | .cdec vd => Sys2Proof.Machine.execCdec vd s
  -- 42_gf2.md
  | .mwr mb sa va => Sys2Proof.Machine.execMwr mb sa va s
  | .mrd vd mb sa => Sys2Proof.Machine.execMrd vd mb sa s
  | .mvc vd mb va => Sys2Proof.Machine.execMvc vd mb va s
  | .vmr vd va mb => Sys2Proof.Machine.execVmr vd va mb s
  -- 43_bitvector.md
  | .vand vd va vb => Sys2Proof.Machine.execVand vd va vb s
  | .vxor vd va vb => Sys2Proof.Machine.execVxor vd va vb s
  | .vpop sd va => Sys2Proof.Machine.execVpop sd va s
  | .vbit sd va sa => Sys2Proof.Machine.execVbit sd va sa s
  | .vdiff sd va vb => Sys2Proof.Machine.execVdiff sd va vb s

end Sys2Proof.Machine
end

