-- ==== Sys2Proof/Machine/Command.lean ====
section
/-!
DEFINITION. The block's step on one submitted word (60_exceptions.md R183), on the hardware reset input
(70_reset_and_hazards.md R210), and where the step finds its next word.
-/

namespace Sys2Proof.Machine

/-- The word of SRST, the one word that is handled while the block is halted (R183, R186). -/
def srstWord : Word := 0x04000000

/-- CMDCNT advanced after a command has been handled (R183). -/
def thenCount (o : Host.Outcome State Fault Refusal) : Host.Outcome State Fault Refusal :=
  match o with
  | .next t => .next (countWord t)
  | .fault r => .fault r
  | .refused r => .refused r

/-- A word submitted while the block is halted: not decoded, and dropped unless it is SRST's (R183, R185, R186). -/
def haltedStep (w : Word) (s : State) : Host.Outcome State Fault Refusal :=
  if w = srstWord then exec .srst s else .next (countWord s)

/-- A word submitted while the block is running (R183): the word of SRST is not counted (R29). -/
def runningStep (w : Word) (s : State) : Host.Outcome State Fault Refusal :=
  match decode w with
  | .error _ => thenCount (.next (errorEntry .illegal w s))
  | .ok .srst => exec .srst s
  | .ok i => thenCount (exec i s)

/-- `step(w)` of R183. -/
def commandStep (w : Word) (s : State) : Host.Outcome State Fault Refusal :=
  if s.err then haltedStep w s else runningStep w s

/-- What the block does on one input of the host (70_reset_and_hazards.md R220, R210). -/
def handleInput (e : HostInput) (s : State) : Host.Outcome State Fault Refusal :=
  match e with
  | .submit w => commandStep w s
  | .reset => .next (resetBlock s)

/-- The oldest waiting input is handled; with none the block is idle with all state kept (60_exceptions.md R195,
70_reset_and_hazards.md R212). DESIGN CHOICE: log entry 2. -/
def handleNext (s : State) : Host.Outcome State Fault Refusal :=
  match s.input with
  | [] => .next s
  | e :: rest => handleInput e { s with input := rest }

/-- The host submits a word: it waits behind the words submitted before it (R220, R20). -/
def submitWord (s : State) (w : Word) : State := { s with input := s.input ++ [.submit w] }

/-- The host asserts the hardware reset input after its earlier submissions (R210, R220). -/
def assertReset (s : State) : State := { s with input := s.input ++ [.reset] }

/-- A word placed ahead of everything that waits, so that the next step handles it. -/
def placeNext (s : State) (w : Word) : State := { s with input := .submit w :: s.input }

end Sys2Proof.Machine
end

