-- ==== Sys2Proof/Machine/Step.lean ====
section
/-!
DEFINITION. One step of the machine: the block handles the oldest input the host has sent (10_state.md R20).
-/

namespace Sys2Proof.Machine

/-- One step: one submitted word, or one assertion of the reset input, handled to completion (R20, R183). -/
def step (s : State) : Host.Outcome State Fault Refusal := handleNext s

/-- `s` with a command word at the head of the command stream, where `step` takes its next word. The block has no
program counter and fetches nothing (R30), so this stands for the host's submission of the word (log entry 2). -/
def State.withFetchWord (s : State) (nbits w : Nat) : State :=
  placeNext s (BitVec.ofNat 32 (w % 2 ^ nbits))

end Sys2Proof.Machine
end

