-- ==== Sys2Proof/Machine/Assembler.lean ====
section
/-!
DEFINITION. The assembler of 30_encoding.md: the spellings of a command (R84) and the expansions of the
pseudo-instructions (R85), with the command sequences of 70_reset_and_hazards.md R213. The block sees none of these,
only the words.
-/

namespace Sys2Proof.Machine

/-- A hexadecimal digit's character. -/
def hexChar (n : Nat) : Char := if n < 10 then Char.ofNat (0x30 + n) else Char.ofNat (0x41 + n - 10)

/-- The hexadecimal spelling of a number of at most 16 bits, without leading zeros. -/
def hexText (n : Nat) : String :=
  if n < 0x10 then String.ofList [hexChar n]
  else if n < 0x100 then String.ofList [hexChar (n / 16), hexChar (n % 16)]
  else if n < 0x1000 then
    String.ofList [hexChar (n / 256), hexChar (n / 16 % 16), hexChar (n % 16)]
  else String.ofList [hexChar (n / 4096), hexChar (n / 256 % 16), hexChar (n / 16 % 16), hexChar (n % 16)]

/-- "Numbers are decimal or `0x` hexadecimal" (R84). -/
def numberSpellings (n : Nat) : List String := [toString n, "0x" ++ hexText n]

/-- `'c'`, for a code that is a printable ASCII character's (R84), and the numbers. -/
def charSpellings (ch : BitVec 8) : List String :=
  (if 0x20 ≤ ch.toNat ∧ ch.toNat ≤ 0x7E then ["'" ++ String.ofList [Char.ofNat ch.toNat] ++ "'"] else [])
    ++ numberSpellings ch.toNat

/-- A vector register's name. -/
def vName (i : VReg) : String := "V" ++ toString i.toNat

/-- A scalar register's name. -/
def sName (i : SReg) : String := "S" ++ toString i.toNat

/-- A bank's name: "`bank` is `A`, `B` or `C`" (R84); code 3 has none. -/
def bankNames (mb : BankCode) : List String :=
  match mb.toNat with
  | 0 => ["A"]
  | 1 => ["B"]
  | 2 => ["C"]
  | _ => []

/-- The lines that assemble to a command (R84). DEDUCED, safe: log entry 10. -/
def spellings : Instr → List String
  | .nop => ["NOP"]
  | .srst => ["SRST"]
  | .setdim imm => (numberSpellings imm.toNat).map fun n => "SETDIM " ++ n
  | .sets sd imm => (numberSpellings imm.toNat).map fun n => "SETS " ++ sName sd ++ ", " ++ n
  | .crst => ["CRST"]
  | .chex ch => (charSpellings ch).map fun c => "CHEX " ++ c
  | .cdec vd => ["CDEC " ++ vName vd]
  | .mwr mb sa va => (bankNames mb).map fun b => "MWR " ++ b ++ "[" ++ sName sa ++ "], " ++ vName va
  | .mrd vd mb sa => (bankNames mb).map fun b => "MRD " ++ vName vd ++ ", " ++ b ++ "[" ++ sName sa ++ "]"
  | .mvc vd mb va => (bankNames mb).map fun b => "MVC " ++ vName vd ++ ", " ++ b ++ ", " ++ vName va
  | .vmr vd va mb => (bankNames mb).map fun b => "VMR " ++ vName vd ++ ", " ++ vName va ++ ", " ++ b
  | .vand vd va vb => ["VAND " ++ vName vd ++ ", " ++ vName va ++ ", " ++ vName vb]
  | .vxor vd va vb => ["VXOR " ++ vName vd ++ ", " ++ vName va ++ ", " ++ vName vb]
  | .vpop sd va => ["VPOP " ++ sName sd ++ ", " ++ vName va]
  | .vbit sd va sa => ["VBIT " ++ sName sd ++ ", " ++ vName va ++ "[" ++ sName sa ++ "]"]
  | .vdiff sd va vb => ["VDIFF " ++ sName sd ++ ", " ++ vName va ++ ", " ++ vName vb]

/-- A line assembles to a word (R84). -/
def assemblesTo (line : String) (w : Word) : Prop := ∃ i : Instr, line ∈ spellings i ∧ encode i = w

/-! ## Pseudo-instructions (R85) -/

/-- `VMOV Vd, Va`. -/
def pseudoVmov (vd va : VReg) : List Instr := [.vand vd va va]

/-- `VCLR Vd`. -/
def pseudoVclr (vd : VReg) : List Instr := [.vxor vd vd vd]

/-- `CHEXS "d1 d2 ... dk"`, on the character codes. -/
def pseudoChexs (chars : List (BitVec 8)) : List Instr := chars.map Instr.chex

/-- `LDROW bank, r, "hex"`: it overwrites S3 and V7. -/
def pseudoLdrow (mb : BankCode) (r : BitVec 16) (chars : List (BitVec 8)) : List Instr :=
  [.sets 3 r, .crst] ++ pseudoChexs chars ++ [.cdec 7, .mwr mb 3 7]

/-- `LDVEC Vd, "hex"`. -/
def pseudoLdvec (vd : VReg) (chars : List (BitVec 8)) : List Instr :=
  [.crst] ++ pseudoChexs chars ++ [.cdec vd]

/-! ## The order of a case (70_reset_and_hazards.md R213) -/

/-- Step 2 for one matrix: its rows' strings from natural row 0. -/
def loadMatrix (mb : BankCode) (rows : List (List (BitVec 8))) : List Instr :=
  rows.zipIdx.flatMap fun row => pseudoLdrow mb (BitVec.ofNat 16 row.2) row.1

/-- Steps 1 and 2: the dimension, then A, B and C. -/
def loadCase (n : BitVec 16) (rowsA rowsB rowsC : List (List (BitVec 8))) : List Instr :=
  .setdim n :: (loadMatrix 0 rowsA ++ loadMatrix 1 rowsB ++ loadMatrix 2 rowsC)

/-- Step 3: one probe, the vector `x` given as a row-string in natural order. -/
def probeCase (vx vbx vabx vcx : VReg) (sr : SReg) (chars : List (BitVec 8)) : List Instr :=
  pseudoLdvec vx chars ++ [.mvc vbx 1 vx, .mvc vabx 0 vbx, .mvc vcx 2 vx, .vdiff sr vabx vcx]

/-- Step 4: the localizer, run after a probe that found a difference. -/
def localizeCase (va vab vc : VReg) (sr sc : SReg) : List Instr :=
  [.mrd va 0 sr, .vmr vab va 1, .mrd vc 2 sr, .vdiff sc vab vc]

end Sys2Proof.Machine
end

