-- ==== Sys2Proof/Machine/SourceCodec.lean ====
section
/-!
DEFINITION. The source's codec algorithm as 41_codec.md R120 quotes it, on the digits of a row-string, and the value of a
row-string (R125). The block computes the same vector from its digit accumulator. The padding width of the second step
is a parameter, because 90_conflicts.md C1 leaves it open and says that it has no effect.
-/

namespace Sys2Proof.Machine

/-- `val(T)`: the row-string read as a big-endian hexadecimal number (R125). -/
def rowStringValue (digits : List Nat) : Nat := digits.foldl (fun acc d => 16 * acc + d) 0

/-- Left-padding with zero nibbles until the number of nibbles is a multiple of `k`. -/
def padLeft (k : Nat) (digits : List Nat) : List Nat :=
  List.replicate ((k - digits.length % k) % k) 0 ++ digits

/-- "decode each adjacent hex-digit pair (high nibble, low nibble) into one byte". -/
def pairBytes : List Nat → List Nat
  | high :: low :: rest => (16 * high + low) :: pairBytes rest
  | _ => []

/-- The byte array, "filling byte array from least-significant byte first". -/
def sourceBytes (width : Nat) (digits : List Nat) : List Nat :=
  (pairBytes (padLeft width (padLeft 2 digits))).reverse

/-- Bit `i` of the bit vector built from a byte array "least-significant-bit-first". -/
def byteArrayBit (bytes : List Nat) (i : Nat) : Bool := (bytes.getD (i / 8) 0).testBit (i % 8)

/-- The vector: "right-shift the resulting bit vector by (4 − N mod 4) mod 4 bits [...] and truncate/extend to exactly N
bits". -/
def sourceDecode (width n : Nat) (digits : List Nat) : Nat :=
  placeBits (fun j => j) (fun j => byteArrayBit (sourceBytes width digits) (j + padShift n)) n

/-- The accumulator after a row-string's digits have been appended one by one to a cleared codec (R122). -/
def accumulateDigits (nmax : Nat) (digits : List Nat) : Nat :=
  digits.foldl (appendDigit nmax) 0

end Sys2Proof.Machine
end

