-- ==== Sys2Proof/Machine/HostMap.lean ====
section
/-!
DEFINITION. What the host sees: the register map (10_state.md R31 to R35), reads ordered after the submitted words
(20_memory.md R58), and the end of a run (70_reset_and_hazards.md R219).
-/

namespace Sys2Proof.Machine

/-- `VWIN(v, k)` (R34): raw bits 32k to 32k+31 of V[v], those at or above NMAX read as 0. -/
def vectorWindow (s : State) (i : VReg) (k : Nat) : Word :=
  BitVec.ofNat 32 (maskBits s.nmax (readV s i) >>> (32 * k))

/-- The register at a 16-bit word address (R31); a reserved address reads 0. -/
def readRegister (s : State) (a : BitVec 16) : Word :=
  match a.toNat with
  | 0x0000 => statusWord s
  | 0x0001 => zext32 s.dim
  | 0x0002 => zext32 s.ccnt
  | 0x0003 => s.cmdcnt
  | 0x0004 => s.eword
  | 0x0005 => s.ecnt
  | 0x0006 => zext32 s.nmax
  | 0x0008 => readS s 0
  | 0x0009 => readS s 1
  | 0x000A => readS s 2
  | 0x000B => readS s 3
  | n =>
    if 0x1000 ≤ n ∧ n < 0x1800 then
      vectorWindow s (BitVec.ofNat 3 ((n - 0x1000) / 0x100)) ((n - 0x1000) % 0x100)
    else 0

/-- Every input of a list handled in order, each to completion (R20). -/
def handleAll : List HostInput → State → Host.Outcome State Fault Refusal
  | [], s => .next s
  | e :: rest, s =>
    match handleInput e s with
    | .next t => handleAll rest t
    | .fault r => .fault r
    | .refused r => .refused r

/-- The state once everything the host has sent has been handled. -/
def settle (s : State) : Host.Outcome State Fault Refusal := handleAll s.input { s with input := [] }

/-- A host read (R35, R58): the value the register holds after every previously submitted command has completed. It
changes no state. -/
def hostRead (s : State) (a : BitVec 16) : Option Word :=
  match settle s with
  | .next t => some (readRegister t a)
  | .fault _ => none
  | .refused _ => none

/-- A run (R219): the state after the last word of a finite command list has been handled, from reset. -/
def runWords (nmax : Nat) (words : List Word) : Host.Outcome State Fault Refusal :=
  handleAll (words.map HostInput.submit) (State.resetFor nmax)

end Sys2Proof.Machine
end

