-- ==== Sys2Proof/Machine/Natural.lean ====
section
/-!
DEFINITION. The natural reading of rows and vectors (00_scope.md R9): component and entry by natural index, and sums over
GF(2) (R10). Words for statements about the products (42_gf2.md R144, R147).
-/

namespace Sys2Proof.Machine

/-- Natural component `k` of a vector of dimension `n`: raw bit `rev_n(k)` (R9). -/
def component (n : Nat) (x : Nat) (k : Nat) : Bool := x.testBit (revIndex n k)

/-- Entry (i, c) of the matrix in a bank, both natural (R9): `Row(b, i)[rev_N(c)]`. -/
def entry (m : Memory) (b : Bank) (n i c : Nat) : Bool := component n (matRead m b i) c

/-- The GF(2) sum (R10: "addition = XOR") of the first `n` terms. -/
def xorSum (f : Nat → Bool) : Nat → Bool
  | 0 => false
  | n + 1 => xorSum f n ^^ f n

end Sys2Proof.Machine
end

