-- ==== Sys2Proof/Machine/OpcodeTable.lean ====
section
/-!
DEFINITION. The opcode map of 30_encoding.md R77 as data: mnemonic, match, mask and whether the command uses `mb`.
-/

namespace Sys2Proof

/-- One row of R77. -/
structure OpcodeRow where
  mnemonic : String
  matchWord : Word
  mask : Word
  usesBank : Bool
  deriving DecidableEq, Repr

/-- The 16 rows of R77, in its order. -/
def opcodeRows : List OpcodeRow :=
  [ ⟨"NOP", 0x00000000, 0xFFFFFFFF, false⟩, ⟨"SRST", 0x04000000, 0xFFFFFFFF, false⟩,
    ⟨"SETDIM", 0x08000000, 0xFFFF0000, false⟩, ⟨"SETS", 0x0C000000, 0xFFFC0000, false⟩,
    ⟨"CRST", 0x10000000, 0xFFFFFFFF, false⟩, ⟨"CHEX", 0x14000000, 0xFFFFFF00, false⟩,
    ⟨"CDEC", 0x18000000, 0xFC7FFFFF, false⟩ ]
  ++
  [ ⟨"MWR", 0x20000000, 0xFF8E67FF, true⟩, ⟨"MRD", 0x24000000, 0xFC7E67FF, true⟩,
    ⟨"MVC", 0x28000000, 0xFC0E7FFF, true⟩, ⟨"VMR", 0x2C000000, 0xFC0E7FFF, true⟩ ]
  ++
  [ ⟨"VAND", 0x40000000, 0xFC01FFFF, false⟩, ⟨"VXOR", 0x44000000, 0xFC01FFFF, false⟩,
    ⟨"VPOP", 0x48000000, 0xFF8F9FFF, false⟩, ⟨"VBIT", 0x4C000000, 0xFF8F87FF, false⟩,
    ⟨"VDIFF", 0x50000000, 0xFF819FFF, false⟩ ]

/-- The mnemonic of a command (R77). -/
def mnemonic : Instr → String
  | .nop => "NOP"
  | .srst => "SRST"
  | .setdim _ => "SETDIM"
  | .sets _ _ => "SETS"
  | .crst => "CRST"
  | .chex _ => "CHEX"
  | .cdec _ => "CDEC"
  | .mwr _ _ _ => "MWR"
  | .mrd _ _ _ => "MRD"
  | .mvc _ _ _ => "MVC"
  | .vmr _ _ _ => "VMR"
  | .vand _ _ _ => "VAND"
  | .vxor _ _ _ => "VXOR"
  | .vpop _ _ => "VPOP"
  | .vbit _ _ _ => "VBIT"
  | .vdiff _ _ _ => "VDIFF"

end Sys2Proof
end

