-- ==== Sys2Proof/Safety.lean ====
section
/-!
DEFINITION. The terms claims use: the invariant of the block between commands (10_state.md R27 and the ranges of R21,
R26, R28), and what it is for a part of the state to be unchanged.
-/

namespace Sys2Proof.Machine

/-! ## The invariant -/

/-- NMAX and DIM are in range (00_scope.md R6, 10_state.md R21). -/
abbrev SizesInRange (s : State) : Prop :=
  1 ≤ s.nmax ∧ s.nmax ≤ Config.nmaxLimit ∧ s.dim ≤ s.nmax

/-- No vector register has a bit at or above DIM (R27). -/
abbrev VectorsCanonical (s : State) : Prop := ∀ i : VReg, readV s i < 2 ^ s.dim

/-- A bank holds rows below DIM only, and no row has a bit at or above DIM (R27). -/
abbrev BankCanonical (s : State) (rows : List (Nat × Nat)) : Prop :=
  ∀ row ∈ rows, row.1 < s.dim ∧ row.2 < 2 ^ s.dim

/-- Every bank is canonical (R27), and the row space is in its canonical form. -/
abbrev RowsCanonical (s : State) : Prop :=
  s.mem.wf = true ∧ BankCanonical s s.mem.rowsA ∧ BankCanonical s s.mem.rowsB ∧ BankCanonical s s.mem.rowsC

/-- The codec holds at most MAXDIG(DIM) digits, and CACC is their value (R26, 41_codec.md R127). -/
abbrev CodecInRange (s : State) : Prop := s.ccnt ≤ maxDig s.dim ∧ s.cacc < 2 ^ (4 * s.ccnt)

/-- ECODE, EWORD and ECNT are 0 unless ERR = 1, and ECODE is not 0 then (R28, 60_exceptions.md R180). -/
abbrev ErrorFieldsAgree (s : State) : Prop :=
  s.err = s.ecode.isSome ∧ (s.err = false → s.eword = 0 ∧ s.ecnt = 0)

/-- What holds of the block between commands. -/
abbrev BlockInv (s : State) : Prop :=
  SizesInRange s ∧ VectorsCanonical s ∧ RowsCanonical s ∧ CodecInRange s ∧ ErrorFieldsAgree s

/-! ## Unchanged parts -/

/-- NMAXR, DIM, CMDCNT and the waiting inputs are unchanged. -/
abbrev SameControl (s t : State) : Prop :=
  t.nmax = s.nmax ∧ t.dim = s.dim ∧ t.cmdcnt = s.cmdcnt ∧ t.input = s.input

/-- Every vector register is unchanged. -/
abbrev SameVectors (s t : State) : Prop := ∀ i : VReg, readV t i = readV s i

/-- Every vector register but one is unchanged. -/
abbrev SameVectorsBut (vd : VReg) (s t : State) : Prop := ∀ i : VReg, i ≠ vd → readV t i = readV s i

/-- Every scalar register is unchanged. -/
abbrev SameScalars (s t : State) : Prop := ∀ i : SReg, readS t i = readS s i

/-- Every scalar register but one is unchanged. -/
abbrev SameScalarsBut (sd : SReg) (s t : State) : Prop := ∀ i : SReg, i ≠ sd → readS t i = readS s i

/-- Every row of every bank reads as before. -/
abbrev SameRows (s t : State) : Prop := ∀ (b : Bank) (r : Nat), matRead t.mem b r = matRead s.mem b r

/-- Z and P are unchanged. -/
abbrev SameFlags (s t : State) : Prop := t.z = s.z ∧ t.p = s.p

/-- CACC and CCNT are unchanged. -/
abbrev SameCodec (s t : State) : Prop := t.cacc = s.cacc ∧ t.ccnt = s.ccnt

/-- ERR, ECODE, EWORD and ECNT are unchanged. -/
abbrev SameErrors (s t : State) : Prop :=
  t.err = s.err ∧ t.ecode = s.ecode ∧ t.eword = s.eword ∧ t.ecnt = s.ecnt

/-- Nothing of the block changes but one vector register. -/
abbrev OnlyVectorChanges (vd : VReg) (s t : State) : Prop :=
  SameVectorsBut vd s t ∧ SameControl s t ∧ SameScalars s t ∧ SameRows s t ∧ SameFlags s t ∧ SameCodec s t ∧
    SameErrors s t

/-- Nothing of the block changes but one scalar register and perhaps the flags. -/
abbrev OnlyScalarAndFlagsChange (sd : SReg) (s t : State) : Prop :=
  SameScalarsBut sd s t ∧ SameControl s t ∧ SameVectors s t ∧ SameRows s t ∧ SameCodec s t ∧ SameErrors s t

/-- Nothing of the block changes but the codec. -/
abbrev OnlyCodecChanges (s t : State) : Prop :=
  SameControl s t ∧ SameVectors s t ∧ SameScalars s t ∧ SameRows s t ∧ SameFlags s t ∧ SameErrors s t

/-- Nothing of the block changes but one row of one bank. -/
abbrev OnlyRowChanges (b : Bank) (r : Nat) (s t : State) : Prop :=
  (∀ (b' : Bank) (r' : Nat), ¬(b' = b ∧ r' = r) → matRead t.mem b' r' = matRead s.mem b' r') ∧
    SameControl s t ∧ SameVectors s t ∧ SameScalars s t ∧ SameFlags s t ∧ SameCodec s t ∧ SameErrors s t

/-! ## Errors and words -/

/-- A command takes an error: ERR, ECODE, EWORD and ECNT are written and nothing else is (60_exceptions.md R184). -/
abbrev Raises (i : Instr) (code : ErrorCode) (s : State) : Prop :=
  exec i s = .next { s with err := true, ecode := some code, eword := encode i, ecnt := s.cmdcnt }

/-- A word spells a mnemonic exactly when it passes this match and mask, and names a bank where the command uses `mb`
(30_encoding.md R77). -/
abbrev SpelledBy (name : String) (matchWord mask : Word) (usesBank : Bool) : Prop :=
  ∀ w : Word, (∃ i, decode w = .ok i ∧ mnemonic i = name) ↔
    (w &&& mask = matchWord ∧ (usesBank = true → mbField w ≠ 3))

/-- A step on a word that spells no command, from a running block: E_ILLEGAL with that word, the word counted, and no other
effect (60_exceptions.md R183, R184). -/
abbrev TakesIllegal (w : Word) (s : State) : Prop :=
  step s = .next { s with err := true, ecode := some .illegal, eword := w, ecnt := s.cmdcnt,
                          cmdcnt := s.cmdcnt + 1, input := s.input.tail }

/-- The block is running and the next input is the word `w`. -/
abbrev RunsNext (w : Word) (s : State) : Prop := s.err = false ∧ s.input.head? = some (.submit w)

/-- A word with a command's opcode that does not spell the command raises E_ILLEGAL (30_encoding.md R78, R80). -/
abbrev IllegalOtherwise (matchWord mask : Word) (usesBank : Bool) : Prop :=
  ∀ (w : Word) (s : State), opcodeField w = opcodeField matchWord →
    ¬(w &&& mask = matchWord ∧ (usesBank = true → mbField w ≠ 3)) → RunsNext w s → TakesIllegal w s

/-- An opcode is reserved (30_encoding.md R79). -/
abbrev ReservedOpcode (op : Nat) : Prop := op = 0x07 ∨ (0x0C ≤ op ∧ op ≤ 0x0F) ∨ (0x15 ≤ op ∧ op ≤ 0x3F)

/-- The code of a bank (30_encoding.md R75). -/
def codeOf : Bank → BankCode
  | .bankA => 0
  | .bankB => 1
  | .bankC => 2

/-- A character code is the hex digit of value `d` (41_codec.md R123). -/
abbrev IsDigit (ch : BitVec 8) (d : Nat) : Prop :=
  (0x30 ≤ ch.toNat ∧ ch.toNat ≤ 0x39 ∧ ch.toNat = 0x30 + d) ∨
    (0x41 ≤ ch.toNat ∧ ch.toNat ≤ 0x46 ∧ ch.toNat + 10 = 0x41 + d)

/-- The number of positions below `n` at which `f` holds. -/
def countBelow (n : Nat) (f : Nat → Bool) : Nat := ((List.range n).filter f).length

/-- The commands that leave the same state when submitted twice in a row (20_memory.md R59): not CHEX, not CDEC, and no
destination that is also a source. -/
def repeatable : Instr → Bool
  | .chex _ | .cdec _ => false
  | .mvc vd _ va | .vmr vd va _ => vd != va
  | .vand vd va vb | .vxor vd va vb => vd != va && vd != vb
  | .vbit sd _ sa => sd != sa
  | .nop | .srst | .setdim _ | .sets _ _ | .crst | .mwr _ _ _ | .mrd _ _ _ | .vpop _ _ | .vdiff _ _ _ => true

/-- The commands that need a configured dimension (60_exceptions.md R181). -/
def needsDim : Instr → Bool
  | .nop | .srst | .setdim _ | .sets _ _ | .crst => false
  | .chex _ | .cdec _ | .mwr _ _ _ | .mrd _ _ _ | .mvc _ _ _ | .vmr _ _ _
  | .vand _ _ _ | .vxor _ _ _ | .vpop _ _ | .vbit _ _ _ | .vdiff _ _ _ => true

/-- The scalar register that gives a command its row or bit index (30_encoding.md R75). -/
def indexOperand : Instr → Option SReg
  | .mwr _ sa _ | .mrd _ _ sa | .vbit _ _ sa => some sa
  | .nop | .srst | .setdim _ | .sets _ _ | .crst | .chex _ | .cdec _ | .mvc _ _ _ | .vmr _ _ _
  | .vand _ _ _ | .vxor _ _ _ | .vpop _ _ | .vdiff _ _ _ => none

/-- The cause of each error in the table of 60_exceptions.md R180, for a command whose fields have been cut: of
E_ILLEGAL only bank code 3 is left. -/
def errorCause (code : ErrorCode) (i : Instr) (s : State) : Prop :=
  match code with
  | .illegal => i.wellFormed = false
  | .dimRange => ∃ imm, i = .setdim imm ∧ (imm.toNat = 0 ∨ s.nmax < imm.toNat)
  | .noDim => needsDim i = true ∧ s.dim = 0
  | .hex => ∃ ch, i = .chex ch ∧ ∀ d, ¬ IsDigit ch d
  | .len => ∃ ch, i = .chex ch ∧ s.ccnt = maxDig s.dim
  | .idx => ∃ sa, indexOperand i = some sa ∧ s.dim ≤ (readS s sa).toNat

/-- The priority of the errors within one command, 0 the highest (60_exceptions.md R182). -/
def errorRank : ErrorCode → Nat
  | .illegal => 0
  | .noDim => 1
  | .dimRange | .hex | .idx => 2
  | .len => 3

end Sys2Proof.Machine
end

