-- ==== Sys2Proof/Certificates/Slice0/Obligations.lean ====
section
/-!
DEFINITION. The statements for the provers, from the numbered rules of spec/.
-/

open Sys2Proof Sys2Proof.Machine

/-! ## Reset (10_state.md R36, 70_reset_and_hazards.md R210, R211) -/

/-- R36: the value of every piece of state after reset, for every NMAX; `State.reset` is that state for the build's
NMAX. -/
def Obligations.ResetLeavesEveryValue : Prop :=
  (∀ n : Nat,
    (State.resetFor n).dim = 0 ∧
    (∀ i : VReg, readV (State.resetFor n) i = 0) ∧
    (∀ (b : Bank) (r : Nat), matRead (State.resetFor n).mem b r = 0) ∧
    (∀ i : SReg, readS (State.resetFor n) i = 0) ∧
    (State.resetFor n).z = false ∧ (State.resetFor n).p = false ∧
    (State.resetFor n).cacc = 0 ∧ (State.resetFor n).ccnt = 0 ∧
    (State.resetFor n).err = false ∧ codeNumber (State.resetFor n).ecode = 0 ∧
    (State.resetFor n).eword = 0 ∧ (State.resetFor n).ecnt = 0 ∧ (State.resetFor n).cmdcnt = 0 ∧
    (State.resetFor n).nmax = n) ∧
  State.reset = State.resetFor Config.nmax

/-- R210, R211, R101: SRST and the hardware reset input set everything to its reset value and keep NMAX; SRST does so in
every state, halted or not, and its word is not counted; no other word of its opcode is SRST. That what the host has
still to send (the model's own field `input`) is what it was is the model's DESIGN CHOICE, log entry 2, and no rule of the
spec. -/
def Obligations.SrstAndHardwareResetAgree : Prop :=
  SpelledBy "SRST" 0x04000000 0xFFFFFFFF false ∧ IllegalOtherwise 0x04000000 0xFFFFFFFF false ∧
  (∀ s : State, exec .srst s = .next { State.resetFor s.nmax with input := s.input }) ∧
  (∀ (s : State) (rest : List HostInput), s.input = .submit 0x04000000 :: rest →
    step s = .next { State.resetFor s.nmax with input := rest }) ∧
  (∀ (s : State) (rest : List HostInput), s.input = .reset :: rest →
    step s = .next { State.resetFor s.nmax with input := rest })

/-- The invariant (R27 and the ranges of R21, R26, R28) holds after reset, for every NMAX in range. -/
def Obligations.ResetMeetsInvariant : Prop :=
  (∀ n : Nat, 1 ≤ n → n ≤ 4096 → BlockInv (State.resetFor n)) ∧ BlockInv State.reset

/-- R27: every step keeps the invariant. -/
def Obligations.EveryStepKeepsInvariant : Prop :=
  ∀ s t : State, BlockInv s → step s = .next t → BlockInv t

/-! ## Words (30_encoding.md) -/

/-- R77: a word spells a mnemonic of the opcode map exactly when it passes the row's match and mask and, for the commands
that use `mb`, does not have bank code 3. -/
def Obligations.MnemonicsAreSpelledByMatchAndMask : Prop :=
  ∀ row ∈ opcodeRows, SpelledBy row.mnemonic row.matchWord row.mask row.usesBank

/-- R79: exactly the opcodes 0x07, 0x0C..0x0F and 0x15..0x3F are reserved; a word with one of them raises E_ILLEGAL,
whatever its other bits. -/
def Obligations.ReservedOpcodesAreRefused : Prop :=
  (∀ w : Word, decode w = .error .reservedOpcode ↔ ReservedOpcode (opcodeField w).toNat) ∧
  (∀ (w : Word) (s : State), ReservedOpcode (opcodeField w).toNat → RunsNext w s → TakesIllegal w s)

/-- R81: every word is one command of the map, and of one row only, or illegal; the all-zero word is NOP. -/
def Obligations.EveryWordIsOneCommandOrIllegal : Prop :=
  (∀ w : Word, (∃ r, decode w = .error r) ∨
    (∃ i, decode w = .ok i ∧ ∃ row ∈ opcodeRows, mnemonic i = row.mnemonic ∧ w &&& row.mask = row.matchWord ∧
      ∀ other ∈ opcodeRows, w &&& other.mask = other.matchWord → other = row)) ∧
  decode 0 = .ok .nop

/-- Decoding and encoding agree, both ways: a word decodes to a command exactly when the command is well-formed and the
word is its encoding (R71 to R77, R83). -/
def Obligations.DecodeAndEncodeAgree : Prop :=
  ∀ (w : Word) (i : Instr), decode w = .ok i ↔ (i.wellFormed = true ∧ encode i = w)

/-- The example words of R84, one for each command, with the line that assembles to each. -/
def Obligations.ExampleWordsOfTheSpecDecode : Prop :=
  (decode 0x00000000 = .ok .nop ∧ decode 0x04000000 = .ok .srst ∧ decode 0x08000002 = .ok (.setdim 2) ∧
    decode 0x0C030001 = .ok (.sets 3 1) ∧ decode 0x10000000 = .ok .crst ∧ decode 0x14000043 = .ok (.chex 0x43) ∧
    decode 0x1B800000 = .ok (.cdec 7) ∧ decode 0x20701800 = .ok (.mwr 0 3 7)) ∧
  (decode 0x26000000 = .ok (.mrd 4 0 0) ∧ decode 0x28808000 = .ok (.mvc 1 1 0) ∧
    decode 0x2EC08000 = .ok (.vmr 5 4 1) ∧ decode 0x41020000 = .ok (.vand 2 0 1) ∧
    decode 0x45B60000 = .ok (.vxor 3 3 3) ∧ decode 0x48200000 = .ok (.vpop 0 2) ∧
    decode 0x4C003000 = .ok (.vbit 1 0 2) ∧ decode 0x50260000 = .ok (.vdiff 0 2 3)) ∧
  assemblesTo "CHEX 'C'" 0x14000043 ∧ assemblesTo "MWR A[S3], V7" 0x20701800 ∧
  assemblesTo "VBIT S1, V0[S2]" 0x4C003000

/-! ## The command step (60_exceptions.md) -/

/-- R183: the whole step on a submitted word. While halted, the word of SRST resets and every other word is counted and
dropped; while running, an illegal word takes E_ILLEGAL and is counted, SRST resets uncounted, and every other command
runs its rule (with errors taken, which is `exec`) and is counted. -/
def Obligations.StepRunsTheDecodedCommand : Prop :=
  ∀ (s : State) (w : Word) (rest : List HostInput), s.input = .submit w :: rest →
    (s.err = true → w = 0x04000000 → step s = exec .srst { s with input := rest }) ∧
    (s.err = true → w ≠ 0x04000000 → step s = .next { s with cmdcnt := s.cmdcnt + 1, input := rest }) ∧
    (s.err = false → (∀ i, decode w ≠ .ok i) → TakesIllegal w s) ∧
    (s.err = false → decode w = .ok .srst → step s = exec .srst { s with input := rest }) ∧
    (∀ i, s.err = false → decode w = .ok i → i ≠ .srst →
      ∃ t, exec i { s with input := rest } = .next t ∧ step s = .next { t with cmdcnt := t.cmdcnt + 1 })

/-- R78, R80: a word with an assigned opcode but an unused field that is not 0, or with bank code 3 in a command that uses
`mb`, raises E_ILLEGAL and has no other effect (but that it is counted, R183). -/
def Obligations.IllegalWordsHaltTheBlock : Prop :=
  ∀ row ∈ opcodeRows, IllegalOtherwise row.matchWord row.mask row.usesBank

/-- R186: while ERR = 1 every word but 0x04000000 is dropped, with no effect but CMDCNT + 1, and every host register but
CMDCNT's reads as before. -/
def Obligations.HaltedBlockDropsWords : Prop :=
  ∀ (s : State) (w : Word) (rest : List HostInput),
    s.input = .submit w :: rest → s.err = true → w ≠ 0x04000000 →
      ∃ t, step s = .next t ∧ t = { s with cmdcnt := s.cmdcnt + 1, input := rest } ∧
        ∀ a : BitVec 16, a ≠ 0x0003 → readRegister t a = readRegister s a

/-- R185, R187: a halted block keeps ERR, ECODE, EWORD and ECNT over every step, but for one that resets it. That the
inputs waiting behind the reset are still there after it (`t.input`) is the model's DESIGN CHOICE, log entry 2, and no rule
of the spec. -/
def Obligations.OnlyResetLeavesTheHaltedState : Prop :=
  ∀ s t : State, s.err = true → step s = .next t →
    SameErrors s t ∨
      ((s.input = .reset :: t.input ∨ s.input = .submit 0x04000000 :: t.input) ∧
        t = { State.resetFor s.nmax with input := t.input })

/-- With nothing submitted the block is idle with all state kept (R195). That a step is taken at all then is the model's
choice, log entry 2. -/
def Obligations.IdleBlockKeepsItsState : Prop :=
  ∀ s : State, s.input = [] → step s = .next s

/-- R184: a submitted word that halts the block changes nothing but ERR, ECODE, EWORD, ECNT and CMDCNT; EWORD is that word
and ECNT the count before it. -/
def Obligations.ErrorsArePrecise : Prop :=
  ∀ (s t : State) (w : Word) (rest : List HostInput),
    s.input = .submit w :: rest → s.err = false → step s = .next t → t.err = true →
      ∃ code, t = { s with err := true, ecode := some code, eword := w, ecnt := s.cmdcnt,
                           cmdcnt := s.cmdcnt + 1, input := rest }

/-- R181: NOP, SRST, SETS and CRST raise no error (E_ILLEGAL apart, which their words raise before `exec`); the commands
that need a dimension raise E_NODIM while DIM = 0 (R182 puts it below E_ILLEGAL, so the bank code, where there is one,
names a bank); SETDIM is legal while DIM = 0. -/
def Obligations.CommandsNeedADimension : Prop :=
  (∀ (s : State) (sd : SReg) (imm : BitVec 16), s.err = false →
    ∀ i ∈ [Instr.nop, .srst, .sets sd imm, .crst], ∃ t, exec i s = .next t ∧ t.err = false) ∧
  (∀ (i : Instr) (s : State), i.wellFormed = true → needsDim i = true → s.dim = 0 → Raises i .noDim s) ∧
  (∀ (s : State) (imm : BitVec 16), s.err = false → s.dim = 0 → 1 ≤ imm.toNat → imm.toNat ≤ s.nmax →
    ∃ t, exec (.setdim imm) s = .next t ∧ t.err = false)

/-- R180, R182: the error a running block's command takes is the one whose cause holds while no cause of a higher priority
does, and there is at most one; the codes have the numbers of the table. -/
def Obligations.ErrorsFollowTheirPriority : Prop :=
  (∀ (i : Instr) (s : State) (code : ErrorCode), s.err = false →
    (Raises i code s ↔
      (errorCause code i s ∧ ∀ other, errorRank other < errorRank code → ¬ errorCause other i s))) ∧
  (∀ (i : Instr) (s : State), s.err = false → (∀ code, ¬ errorCause code i s) →
    ∃ t, exec i s = .next t ∧ t.err = false) ∧
  [none, some ErrorCode.illegal, some .dimRange, some .noDim, some .hex, some .len, some .idx].map codeNumber =
    [0, 1, 2, 3, 4, 5, 6]

/-- R220: every input has a defined effect: every step answers a next state, and takes just the oldest input. -/
def Obligations.EveryStepAnswers : Prop :=
  ∀ s : State, ∃ t, step s = .next t ∧ t.input = s.input.tail

/-- R29: every word but SRST's adds 1 to CMDCNT modulo 2^32; after SRST's word CMDCNT is 0. -/
def Obligations.EveryWordIsCounted : Prop :=
  ∀ (s t : State) (w : Word) (rest : List HostInput),
    s.input = .submit w :: rest → step s = .next t →
      t.cmdcnt = if w = 0x04000000 then 0 else s.cmdcnt + 1

/-- R59: apart from CMDCNT, a command other than CHEX and CDEC whose destination is not also a source leaves the same
state when it is submitted twice in a row. The invariant is a premise, for the canonical form of the row space. -/
def Obligations.RepeatingACommandChangesNothing : Prop :=
  ∀ (s t u : State) (w : Word) (rest : List HostInput) (i : Instr),
    BlockInv s → s.input = .submit w :: .submit w :: rest → s.err = false → decode w = .ok i →
      repeatable i = true → step s = .next t → step t = .next u →
        { u with cmdcnt := t.cmdcnt, input := t.input } = t

/-! ## Control commands (40_control.md) -/

/-- R100: NOP. -/
def Obligations.NopHasNoEffect : Prop :=
  SpelledBy "NOP" 0x00000000 0xFFFFFFFF false ∧ IllegalOtherwise 0x00000000 0xFFFFFFFF false ∧
  (∀ s : State, exec .nop s = .next s) ∧
  (∀ (s : State) (rest : List HostInput), s.input = .submit 0x00000000 :: rest →
    step s = .next { s with cmdcnt := s.cmdcnt + 1, input := rest })

/-- R102: SETDIM, its errors and its effect. -/
def Obligations.SetdimStartsACase : Prop :=
  SpelledBy "SETDIM" 0x08000000 0xFFFF0000 false ∧ IllegalOtherwise 0x08000000 0xFFFF0000 false ∧
  (∀ (imm : BitVec 16) (s : State), imm.toNat = 0 ∨ s.nmax < imm.toNat → Raises (.setdim imm) .dimRange s) ∧
  (∀ (imm : BitVec 16) (s : State), 1 ≤ imm.toNat → imm.toNat ≤ s.nmax →
    ∃ t, exec (.setdim imm) s = .next t ∧ t.dim = imm.toNat ∧
      (∀ i : VReg, readV t i = 0) ∧ (∀ (b : Bank) (r : Nat), matRead t.mem b r = 0) ∧
      t.cacc = 0 ∧ t.ccnt = 0 ∧
      SameScalars s t ∧ SameFlags s t ∧ SameErrors s t ∧
      t.nmax = s.nmax ∧ t.cmdcnt = s.cmdcnt ∧ t.input = s.input)

/-- R103: SETS. -/
def Obligations.SetsLoadsAConstant : Prop :=
  SpelledBy "SETS" 0x0C000000 0xFFFC0000 false ∧ IllegalOtherwise 0x0C000000 0xFFFC0000 false ∧
  (∀ (sd : SReg) (imm : BitVec 16) (s : State),
    ∃ t, exec (.sets sd imm) s = .next t ∧ readS t sd = imm.setWidth 32 ∧
      OnlyScalarAndFlagsChange sd s t ∧ SameFlags s t)

/-! ## Codec commands (41_codec.md) -/

/-- R121: CRST. -/
def Obligations.CrstClearsTheCodec : Prop :=
  SpelledBy "CRST" 0x10000000 0xFFFFFFFF false ∧ IllegalOtherwise 0x10000000 0xFFFFFFFF false ∧
  (∀ s : State, ∃ t, exec .crst s = .next t ∧ t.cacc = 0 ∧ t.ccnt = 0 ∧ OnlyCodecChanges s t)

/-- R122 and R123: CHEX, its errors in their order and its effect. The effect is stated for a state of the invariant,
where no digit is lost (R127). -/
def Obligations.ChexAppendsADigit : Prop :=
  SpelledBy "CHEX" 0x14000000 0xFFFFFF00 false ∧ IllegalOtherwise 0x14000000 0xFFFFFF00 false ∧
  (∀ (ch : BitVec 8) (s : State), s.dim = 0 → Raises (.chex ch) .noDim s) ∧
  (∀ (ch : BitVec 8) (s : State), s.dim ≠ 0 → (∀ d, ¬ IsDigit ch d) → Raises (.chex ch) .hex s) ∧
  (∀ (ch : BitVec 8) (d : Nat) (s : State), s.dim ≠ 0 → IsDigit ch d → s.ccnt = (s.dim + 3) / 4 →
    Raises (.chex ch) .len s) ∧
  (∀ (ch : BitVec 8) (d : Nat) (s : State), BlockInv s → s.dim ≠ 0 → IsDigit ch d → s.ccnt ≠ (s.dim + 3) / 4 →
    ∃ t, exec (.chex ch) s = .next t ∧ t.cacc = 16 * s.cacc + d ∧ t.ccnt = s.ccnt + 1 ∧ OnlyCodecChanges s t)

/-- R124: CDEC, its error and its effect; with no digit received (the codec's accumulator is then 0) the result is 0. -/
def Obligations.CdecDecodesTheDigits : Prop :=
  SpelledBy "CDEC" 0x18000000 0xFC7FFFFF false ∧ IllegalOtherwise 0x18000000 0xFC7FFFFF false ∧
  (∀ (vd : VReg) (s : State), s.dim = 0 → Raises (.cdec vd) .noDim s) ∧
  (∀ (vd : VReg) (s : State), s.dim ≠ 0 →
    ∃ t, exec (.cdec vd) s = .next t ∧
      (∀ j, j < s.dim → (readV t vd).testBit j = s.cacc.testBit (j + (4 - s.dim % 4) % 4)) ∧
      (∀ j, s.dim ≤ j → (readV t vd).testBit j = false) ∧
      (BlockInv s → s.ccnt = 0 → readV t vd = 0) ∧
      t.cacc = 0 ∧ t.ccnt = 0 ∧
      SameVectorsBut vd s t ∧ SameControl s t ∧ SameScalars s t ∧ SameRows s t ∧ SameFlags s t ∧ SameErrors s t)

/-- R126: with the accumulator holding MAXDIG(N) digits, natural column c is bit 4·MAXDIG(N) − 1 − c of their value, and
lands at raw bit N − 1 − c. -/
def Obligations.RowStringsAreWrittenLeftToRight : Prop :=
  ∀ (n acc c : Nat), c < n →
    component n (decodeDigits n acc) c = acc.testBit (4 * ((n + 3) / 4) - 1 - c)

/-- R127: digits appended to a cleared codec, at most MAXDIG(N) of them for an N the block can hold, accumulate to the
value of the row-string, which is below 2^(N+sh(N)), so that no bit is lost; and 0 digits put before it do not change what
it decodes to. -/
def Obligations.DigitsAccumulateWithoutLoss : Prop :=
  ∀ (nmax n : Nat) (digits : List Nat), n ≤ nmax → (∀ d ∈ digits, d < 16) → digits.length ≤ (n + 3) / 4 →
    accumulateDigits nmax digits = rowStringValue digits ∧
    4 * ((n + 3) / 4) = n + (4 - n % 4) % 4 ∧
    rowStringValue digits < 2 ^ (n + (4 - n % 4) % 4) ∧
    (∀ zeros, zeros + digits.length ≤ (n + 3) / 4 →
      decodeDigits n (accumulateDigits nmax (List.replicate zeros 0 ++ digits)) =
        decodeDigits n (accumulateDigits nmax digits))

/-- R125: the block's codec gives the vector of the source's algorithm (R120), whatever even padding width the source's
second step uses (90_conflicts.md C1). -/
def Obligations.CodecMatchesTheSourceAlgorithm : Prop :=
  ∀ (nmax n width : Nat) (digits : List Nat), 1 ≤ n → n ≤ nmax → (∀ d ∈ digits, d < 16) →
    digits.length ≤ (n + 3) / 4 → 0 < width → width % 2 = 0 →
      decodeDigits n (accumulateDigits nmax digits) = sourceDecode width n digits

/-- R125, on the commands: from a running block with a dimension, CRST, one CHEX for each digit of a row-string of at most
MAXDIG(N) digits, and CDEC (the words of LDVEC, R85) leave the source algorithm's vector in the register, the codec
cleared and the block running. -/
def Obligations.LoadingARowStringDecodesIt : Prop :=
  ∀ (s : State) (vd : VReg) (width : Nat) (chars : List (BitVec 8)) (digits : List Nat),
    BlockInv s → s.err = false → s.dim ≠ 0 → List.Forall₂ IsDigit chars digits →
    digits.length ≤ (s.dim + 3) / 4 → 0 < width → width % 2 = 0 →
      ∃ t, handleAll ((pseudoLdvec vd chars).map fun i => .submit (encode i)) s = .next t ∧
        readV t vd = sourceDecode width s.dim digits ∧ t.cacc = 0 ∧ t.ccnt = 0 ∧ t.err = false ∧ t.dim = s.dim

/-! ## Row mux and products (42_gf2.md) -/

/-- R141: MWR, its errors and its effect, in a state whose row space is in its canonical form. That form, a premise of the
effect and kept by it, is the model's DESIGN CHOICE, log entry 3, and no rule of the spec. -/
def Obligations.MwrWritesARow : Prop :=
  SpelledBy "MWR" 0x20000000 0xFF8E67FF true ∧ IllegalOtherwise 0x20000000 0xFF8E67FF true ∧
  (∀ (sa : SReg) (va : VReg) (s : State), Raises (.mwr 3 sa va) .illegal s) ∧
  (∀ (b : Bank) (sa : SReg) (va : VReg) (s : State), s.dim = 0 → Raises (.mwr (codeOf b) sa va) .noDim s) ∧
  (∀ (b : Bank) (sa : SReg) (va : VReg) (s : State), s.dim ≠ 0 → s.dim ≤ (readS s sa).toNat →
    Raises (.mwr (codeOf b) sa va) .idx s) ∧
  (∀ (b : Bank) (sa : SReg) (va : VReg) (s : State), s.mem.wf = true → (readS s sa).toNat < s.dim →
    ∃ t, exec (.mwr (codeOf b) sa va) s = .next t ∧
      (∀ j, (matRead t.mem b (readS s sa).toNat).testBit j = (decide (j < s.dim) && (readV s va).testBit j)) ∧
      OnlyRowChanges b (readS s sa).toNat s t ∧ t.mem.wf = true)

/-- R142: MRD, its errors and its effect. -/
def Obligations.MrdReadsARow : Prop :=
  SpelledBy "MRD" 0x24000000 0xFC7E67FF true ∧ IllegalOtherwise 0x24000000 0xFC7E67FF true ∧
  (∀ (vd : VReg) (sa : SReg) (s : State), Raises (.mrd vd 3 sa) .illegal s) ∧
  (∀ (vd : VReg) (b : Bank) (sa : SReg) (s : State), s.dim = 0 → Raises (.mrd vd (codeOf b) sa) .noDim s) ∧
  (∀ (vd : VReg) (b : Bank) (sa : SReg) (s : State), s.dim ≠ 0 → s.dim ≤ (readS s sa).toNat →
    Raises (.mrd vd (codeOf b) sa) .idx s) ∧
  (∀ (vd : VReg) (b : Bank) (sa : SReg) (s : State), (readS s sa).toNat < s.dim →
    ∃ t, exec (.mrd vd (codeOf b) sa) s = .next t ∧
      readV t vd = matRead s.mem b (readS s sa).toNat ∧ OnlyVectorChanges vd s t)

/-- R143: MVC, its errors and its effect: bit N−1−i of the result is 1 if row i and the vector have an odd number of ones
in common. -/
def Obligations.MvcPlacesRowParities : Prop :=
  SpelledBy "MVC" 0x28000000 0xFC0E7FFF true ∧ IllegalOtherwise 0x28000000 0xFC0E7FFF true ∧
  (∀ (vd va : VReg) (s : State), Raises (.mvc vd 3 va) .illegal s) ∧
  (∀ (vd : VReg) (b : Bank) (va : VReg) (s : State), s.dim = 0 → Raises (.mvc vd (codeOf b) va) .noDim s) ∧
  (∀ (vd : VReg) (b : Bank) (va : VReg) (s : State), s.dim ≠ 0 →
    ∃ t, exec (.mvc vd (codeOf b) va) s = .next t ∧
      (∀ i, i < s.dim → (readV t vd).testBit (s.dim - 1 - i) =
        (countBelow s.dim (fun j => (matRead s.mem b i).testBit j && (readV s va).testBit j) % 2 == 1)) ∧
      (∀ j, s.dim ≤ j → (readV t vd).testBit j = false) ∧ OnlyVectorChanges vd s t)

/-- R146: VMR, its errors and its effect: each result bit is the sum over GF(2) of that bit of the rows N−1−i whose raw
bit i is set. -/
def Obligations.VmrAddsSelectedRows : Prop :=
  SpelledBy "VMR" 0x2C000000 0xFC0E7FFF true ∧ IllegalOtherwise 0x2C000000 0xFC0E7FFF true ∧
  (∀ (vd va : VReg) (s : State), Raises (.vmr vd va 3) .illegal s) ∧
  (∀ (vd va : VReg) (b : Bank) (s : State), s.dim = 0 → Raises (.vmr vd va (codeOf b)) .noDim s) ∧
  (∀ (vd va : VReg) (b : Bank) (s : State), s.dim ≠ 0 →
    ∃ t, exec (.vmr vd va (codeOf b)) s = .next t ∧
      (∀ j, (readV t vd).testBit j =
        (countBelow s.dim (fun i =>
          (readV s va).testBit i && (matRead s.mem b (s.dim - 1 - i)).testBit j) % 2 == 1)) ∧
      (BlockInv s → ∀ j, s.dim ≤ j → (readV t vd).testBit j = false) ∧
      OnlyVectorChanges vd s t)

/-- R146, the corner cases: the zero vector gives 0, and a vector with the one set bit i gives row N−1−i. -/
def Obligations.VmrOfAUnitVectorIsARow : Prop :=
  ∀ (vd va : VReg) (b : Bank) (s : State), s.dim ≠ 0 →
    (readV s va = 0 → ∃ t, exec (.vmr vd va (codeOf b)) s = .next t ∧ readV t vd = 0) ∧
    (∀ i, i < s.dim → readV s va = 2 ^ i →
      ∃ t, exec (.vmr vd va (codeOf b)) s = .next t ∧ readV t vd = matRead s.mem b (s.dim - 1 - i))

/-- R144: in natural indices MVC computes the product M·x over GF(2). -/
def Obligations.MvcIsTheMatrixVectorProduct : Prop :=
  ∀ (vd : VReg) (b : Bank) (va : VReg) (s : State), s.dim ≠ 0 →
    ∃ t, exec (.mvc vd (codeOf b) va) s = .next t ∧
      ∀ i, i < s.dim → component s.dim (readV t vd) i =
        xorSum (fun c => entry s.mem b s.dim i c && component s.dim (readV s va) c) s.dim

/-- R147: in natural indices VMR computes the product y·M over GF(2). -/
def Obligations.VmrIsTheVectorMatrixProduct : Prop :=
  ∀ (vd va : VReg) (b : Bank) (s : State), s.dim ≠ 0 →
    ∃ t, exec (.vmr vd va (codeOf b)) s = .next t ∧
      ∀ c, c < s.dim → component s.dim (readV t vd) c =
        xorSum (fun k => component s.dim (readV s va) k && entry s.mem b s.dim k c) s.dim

/-- R216: the two products agree, so that where a probe finds A·(B·x) and C·x to differ at raw bit d, the natural row
N−1−d of A·B, as VMR computes it, differs from that row of C: the localizer's scan "is guaranteed to find one". -/
def Obligations.LocalizerFindsADifference : Prop :=
  ∀ (m : Memory) (n x d : Nat), d < n →
    (matVec m .bankA n (matVec m .bankB n x)).testBit d ≠ (matVec m .bankC n x).testBit d →
      ∃ j, j < n ∧ (vecMat m .bankB n (matRead m .bankA (n - 1 - d))).testBit j ≠
        (matRead m .bankC (n - 1 - d)).testBit j

/-- W5 of 95_test_vectors.md: where C = A·B exactly (entries natural, R9), every probe vector gives A·(B·x) = C·x. -/
def Obligations.ExactProductsPassEveryProbe : Prop :=
  ∀ (m : Memory) (n x : Nat),
    (∀ i c, i < n → c < n →
      entry m .bankC n i c = xorSum (fun k => entry m .bankA n i k && entry m .bankB n k c) n) →
    matVec m .bankA n (matVec m .bankB n x) = matVec m .bankC n x

/-! ## Bit-vector commands (43_bitvector.md) -/

/-- R160: VAND; with va = vb it copies (the pseudo-instruction VMOV). -/
def Obligations.VandIsBitwise : Prop :=
  SpelledBy "VAND" 0x40000000 0xFC01FFFF false ∧ IllegalOtherwise 0x40000000 0xFC01FFFF false ∧
  (∀ (vd va vb : VReg) (s : State), s.dim = 0 → Raises (.vand vd va vb) .noDim s) ∧
  (∀ (vd va vb : VReg) (s : State), s.dim ≠ 0 →
    ∃ t, exec (.vand vd va vb) s = .next t ∧
      (∀ j, (readV t vd).testBit j = ((readV s va).testBit j && (readV s vb).testBit j)) ∧
      (va = vb → readV t vd = readV s va) ∧ OnlyVectorChanges vd s t)

/-- R161: VXOR; with va = vb it clears (the pseudo-instruction VCLR). -/
def Obligations.VxorIsBitwise : Prop :=
  SpelledBy "VXOR" 0x44000000 0xFC01FFFF false ∧ IllegalOtherwise 0x44000000 0xFC01FFFF false ∧
  (∀ (vd va vb : VReg) (s : State), s.dim = 0 → Raises (.vxor vd va vb) .noDim s) ∧
  (∀ (vd va vb : VReg) (s : State), s.dim ≠ 0 →
    ∃ t, exec (.vxor vd va vb) s = .next t ∧
      (∀ j, (readV t vd).testBit j = ((readV s va).testBit j ^^ (readV s vb).testBit j)) ∧
      (va = vb → readV t vd = 0) ∧ OnlyVectorChanges vd s t)

/-- R162: VPOP; the count is exact where DIM is in its range (R21, R166). -/
def Obligations.VpopCountsBits : Prop :=
  SpelledBy "VPOP" 0x48000000 0xFF8F9FFF false ∧ IllegalOtherwise 0x48000000 0xFF8F9FFF false ∧
  (∀ (sd : SReg) (va : VReg) (s : State), s.dim = 0 → Raises (.vpop sd va) .noDim s) ∧
  (∀ (sd : SReg) (va : VReg) (s : State), s.dim ≠ 0 → s.dim ≤ 4096 →
    ∃ t, exec (.vpop sd va) s = .next t ∧
      (readS t sd).toNat = countBelow s.dim (fun j => (readV s va).testBit j) ∧
      t.z = (countBelow s.dim (fun j => (readV s va).testBit j) == 0) ∧
      t.p = (countBelow s.dim (fun j => (readV s va).testBit j) % 2 == 1) ∧
      OnlyScalarAndFlagsChange sd s t)

/-- R163: VBIT. -/
def Obligations.VbitReadsARawBit : Prop :=
  SpelledBy "VBIT" 0x4C000000 0xFF8F87FF false ∧ IllegalOtherwise 0x4C000000 0xFF8F87FF false ∧
  (∀ (sd : SReg) (va : VReg) (sa : SReg) (s : State), s.dim = 0 → Raises (.vbit sd va sa) .noDim s) ∧
  (∀ (sd : SReg) (va : VReg) (sa : SReg) (s : State), s.dim ≠ 0 → s.dim ≤ (readS s sa).toNat →
    Raises (.vbit sd va sa) .idx s) ∧
  (∀ (sd : SReg) (va : VReg) (sa : SReg) (s : State), (readS s sa).toNat < s.dim →
    ∃ t, exec (.vbit sd va sa) s = .next t ∧
      readS t sd = (if (readV s va).testBit (readS s sa).toNat then 1 else 0) ∧
      OnlyScalarAndFlagsChange sd s t ∧ SameFlags s t)

/-- R164: VDIFF; the natural index is exact where DIM is in its range (R21, R166). -/
def Obligations.VdiffFindsTheFirstDifference : Prop :=
  SpelledBy "VDIFF" 0x50000000 0xFF819FFF false ∧ IllegalOtherwise 0x50000000 0xFF819FFF false ∧
  (∀ (sd : SReg) (va vb : VReg) (s : State), s.dim = 0 → Raises (.vdiff sd va vb) .noDim s) ∧
  (∀ (sd : SReg) (va vb : VReg) (s : State), s.dim ≠ 0 →
    (∀ j, j < s.dim → (readV s va).testBit j = (readV s vb).testBit j) →
    ∃ t, exec (.vdiff sd va vb) s = .next t ∧ readS t sd = 0xFFFFFFFF ∧ t.z = true ∧ t.p = s.p ∧
      OnlyScalarAndFlagsChange sd s t) ∧
  (∀ (sd : SReg) (va vb : VReg) (s : State) (d : Nat), s.dim ≤ 4096 → d < s.dim →
    (readV s va).testBit d ≠ (readV s vb).testBit d →
    (∀ j, j < d → (readV s va).testBit j = (readV s vb).testBit j) →
    ∃ t, exec (.vdiff sd va vb) s = .next t ∧ (readS t sd).toNat = s.dim - d - 1 ∧ t.z = false ∧ t.p = s.p ∧
      OnlyScalarAndFlagsChange sd s t)

/-- R164, R142: the not-found value is no valid index: MWR, MRD and VBIT given it raise E_IDX. -/
def Obligations.NotFoundIsNoIndex : Prop :=
  ∀ (s : State) (b : Bank) (v : VReg) (sd sa : SReg), BlockInv s → s.dim ≠ 0 → readS s sa = 0xFFFFFFFF →
    Raises (.mwr (codeOf b) sa v) .idx s ∧ Raises (.mrd v (codeOf b) sa) .idx s ∧ Raises (.vbit sd v sa) .idx s

/-! ## Rules of the whole machine -/

/-- R21: only SETDIM and reset write DIM. -/
def Obligations.OnlySetdimAndResetWriteDim : Prop :=
  ∀ s t : State, step s = .next t → t.dim ≠ s.dim →
    (∃ rest, s.input = .reset :: rest) ∨
    (∃ w rest i, s.input = .submit w :: rest ∧ decode w = .ok i ∧ (i = .srst ∨ ∃ imm, i = .setdim imm))

/-- R23, R102, R211: rows are written only by MWR, and cleared by SETDIM and reset. -/
def Obligations.OnlyMwrSetdimAndResetWriteRows : Prop :=
  ∀ (s t : State) (b : Bank) (r : Nat), step s = .next t → matRead t.mem b r ≠ matRead s.mem b r →
    (∃ rest, s.input = .reset :: rest) ∨
    (∃ w rest i, s.input = .submit w :: rest ∧ decode w = .ok i ∧
      (i = .srst ∨ (∃ imm, i = .setdim imm) ∨ ∃ mb sa va, i = .mwr mb sa va))

/-- R25: no step changes Z but VPOP's, VDIFF's and a reset's, and none changes P but VPOP's and a reset's. -/
def Obligations.FlagsHaveTheirWritersOnly : Prop :=
  ∀ s t : State, step s = .next t →
    (t.z ≠ s.z → (∃ rest, s.input = .reset :: rest) ∨
      (∃ w rest i, s.input = .submit w :: rest ∧ decode w = .ok i ∧
        (i = .srst ∨ (∃ sd va, i = .vpop sd va) ∨ ∃ sd va vb, i = .vdiff sd va vb))) ∧
    (t.p ≠ s.p → (∃ rest, s.input = .reset :: rest) ∨
      (∃ w rest i, s.input = .submit w :: rest ∧ decode w = .ok i ∧ (i = .srst ∨ ∃ sd va, i = .vpop sd va)))

/-- R33, R36: NMAXR is a constant: no step changes it. -/
def Obligations.NmaxNeverChanges : Prop :=
  ∀ s t : State, step s = .next t → t.nmax = s.nmax

/-! ## What the host reads (10_state.md R31 to R35) -/

/-- R32 and the numbers of R180: the fields of STATUS. -/
def Obligations.StatusFieldsAreInTheirPlaces : Prop :=
  ∀ s : State,
    (readRegister s 0).getLsbD 0 = s.err ∧ (readRegister s 0).getLsbD 1 = s.z ∧
    (readRegister s 0).getLsbD 2 = s.p ∧ (readRegister s 0).getLsbD 3 = false ∧
    ((readRegister s 0).extractLsb' 4 4).toNat =
      (match s.ecode with
        | none => 0
        | some .illegal => 1
        | some .dimRange => 2
        | some .noDim => 3
        | some .hex => 4
        | some .len => 5
        | some .idx => 6) ∧
    (readRegister s 0).extractLsb' 8 24 = 0

/-- R31, R33: the host register map, and what it reads after reset. -/
def Obligations.RegistersAreAtTheirAddresses : Prop :=
  (∀ s : State,
    readRegister s 0x0000 = statusWord s ∧
    readRegister s 0x0001 = BitVec.ofNat 32 s.dim ∧ readRegister s 0x0002 = BitVec.ofNat 32 s.ccnt ∧
    readRegister s 0x0003 = s.cmdcnt ∧ readRegister s 0x0004 = s.eword ∧ readRegister s 0x0005 = s.ecnt ∧
    readRegister s 0x0006 = BitVec.ofNat 32 s.nmax ∧ readRegister s 0x0007 = 0 ∧
    readRegister s 0x0008 = readS s 0 ∧ readRegister s 0x0009 = readS s 1 ∧
    readRegister s 0x000A = readS s 2 ∧ readRegister s 0x000B = readS s 3) ∧
  (∀ (s : State) (v : VReg) (k : Nat), k < 256 →
    readRegister s (BitVec.ofNat 16 (0x1000 + 0x100 * v.toNat + k)) = vectorWindow s v k) ∧
  (∀ (s : State) (a : BitVec 16),
    a.toNat = 0x0007 ∨ (0x000B < a.toNat ∧ a.toNat < 0x1000) ∨ 0x1800 ≤ a.toNat → readRegister s a = 0) ∧
  (∀ (n : Nat) (a : BitVec 16),
    readRegister (State.resetFor n) a = if a = 0x0006 then BitVec.ofNat 32 n else 0)

/-- R34: the vector window at 0x1000 + 0x100·v + k; bits at or above NMAX read 0, and, by R27, so do those at or above
DIM. -/
def Obligations.VectorWindowShowsRawBits : Prop :=
  ∀ (s : State) (v : VReg) (k j : Nat), k < 256 → j < 32 →
    (readRegister s (BitVec.ofNat 16 (0x1000 + 0x100 * v.toNat + k))).getLsbD j =
      (decide (32 * k + j < s.nmax) && (readV s v).testBit (32 * k + j)) ∧
    (BlockInv s → s.dim ≤ 32 * k + j →
      (readRegister s (BitVec.ofNat 16 (0x1000 + 0x100 * v.toNat + k))).getLsbD j = false)

/-- R35, R58: a host read returns the register's value after every previously submitted command has completed, every
read returns a value, and a read of a reserved address returns 0. -/
def Obligations.HostReadsSeeEarlierCommands : Prop :=
  (∀ (s : State) (a : BitVec 16), ∃ v, hostRead s a = some v) ∧
  (∀ (s : State) (a : BitVec 16), s.input = [] → hostRead s a = some (readRegister s a)) ∧
  (∀ (s t : State) (a : BitVec 16), s.input ≠ [] → step s = .next t → hostRead s a = hostRead t a) ∧
  (∀ (s : State) (a : BitVec 16),
    a.toNat = 0x0007 ∨ (0x000B < a.toNat ∧ a.toNat < 0x1000) ∨ 0x1800 ≤ a.toNat → hostRead s a = some 0)

/-- R26: CACC is not host-readable: two states that differ in it only are read alike at every address. -/
def Obligations.CodecAccumulatorIsHidden : Prop :=
  ∀ (s : State) (x : Nat) (a : BitVec 16), readRegister { s with cacc := x } a = readRegister s a

/-- The row space is plain data in one canonical form (the model's choice, log entry 3): two row spaces in that form that
read alike at every row are equal. -/
def Obligations.EqualRowsAreEqualData : Prop :=
  ∀ m m' : Memory, m.wf = true → m'.wf = true → (∀ (b : Bank) (r : Nat), matRead m b r = matRead m' b r) → m = m'
end

