-- ==== Sys2Proof/Laws/Bits.lean ====
section
/-!
SUPPORT. What the operations on bit strings answer, bit by bit: masks, placed bits, counts, sums and the scan.
-/

namespace Sys2Proof.Machine

theorem maskBits_lt (n : Nat) (x : Nat) : maskBits n x < 2 ^ n := Nat.mod_lt _ (by positivity)

theorem maskBits_eq {n : Nat} {x : Nat} (h : x < 2 ^ n) : maskBits n x = x := Nat.mod_eq_of_lt h

@[simp] theorem testBit_maskBits (n : Nat) (x : Nat) (j : Nat) :
    (maskBits n x).testBit j = (decide (j < n) && x.testBit j) := Nat.testBit_mod_two_pow _ _ _

/-- A bit string below `2^n` has no bit at or above `n`. -/
theorem testBit_of_canonical {n : Nat} {x : Nat} (h : x < 2 ^ n) {j : Nat} (hj : n ≤ j) :
    x.testBit j = false :=
  Nat.testBit_lt_two_pow (lt_of_lt_of_le h (Nat.pow_le_pow_right (by omega) hj))

/-- A bit string with no bit at or above `n` is below `2^n`. -/
theorem canonical_of_testBit {n : Nat} {x : Nat} (h : ∀ j, n ≤ j → x.testBit j = false) : x < 2 ^ n :=
  Nat.lt_pow_two_of_testBit x h

theorem testBit_setBit (x : Nat) (i j : Nat) (b : Bool) :
    (setBit x i b).testBit j = if j = i then b else x.testBit j := by
  unfold setBit
  by_cases hj : j = i
  · subst hj
    by_cases h : x.testBit j = b <;> simp [h]
    cases b <;> simp_all
  · rw [if_neg hj]
    split
    · rfl
    · simp [Ne.symm hj]

/-! ## Placed bits -/

/-- A position no round writes keeps 0. -/
theorem testBit_placeBits_of_ne (pos : Nat → Nat) (bit : Nat → Bool) {n j : Nat}
    (h : ∀ i, i < n → pos i ≠ j) : (placeBits pos bit n).testBit j = false := by
  induction n with
  | zero => simp [placeBits]
  | succ n ih =>
    rw [placeBits, testBit_setBit, if_neg (Ne.symm (h n (by omega)))]
    exact ih fun i hi => h i (by omega)

/-- A position one round alone writes holds that round's bit. -/
theorem testBit_placeBits_of_eq (pos : Nat → Nat) (bit : Nat → Bool) {n i : Nat} (hi : i < n)
    (h : ∀ k, k < n → pos k = pos i → k = i) : (placeBits pos bit n).testBit (pos i) = bit i := by
  induction n with
  | zero => omega
  | succ n ih =>
    rw [placeBits, testBit_setBit]
    by_cases hn : i = n
    · rw [if_pos (by rw [hn]), hn]
    · rw [if_neg fun e => hn (h n (by omega) e.symm).symm]
      exact ih (by omega) fun k hk => h k (by omega)

/-- `for j in 0..n-1: r[j] <- bit(j)` gives exactly these bits. -/
theorem testBit_placeBits_id (bit : Nat → Bool) (n j : Nat) :
    (placeBits (fun i => i) bit n).testBit j = (decide (j < n) && bit j) := by
  by_cases hj : j < n
  · simpa [hj] using testBit_placeBits_of_eq (fun i => i) bit hj fun k _ e => e
  · simpa [hj] using testBit_placeBits_of_ne (fun i => i) bit (n := n) (j := j) fun i hi => by omega

theorem revIndex_lt {n i : Nat} (h : i < n) : revIndex n i < n := by unfold revIndex; omega

/-- The reversed-index map is its own inverse (00_scope.md R8). -/
theorem revIndex_revIndex {n i : Nat} (h : i < n) : revIndex n (revIndex n i) = i := by
  unfold revIndex; omega

/-- `for i in 0..n-1: r[n-1-i] <- bit(i)` gives exactly these bits. -/
theorem testBit_placeBits_rev (bit : Nat → Bool) (n j : Nat) :
    (placeBits (revIndex n) bit n).testBit j = (decide (j < n) && bit (revIndex n j)) := by
  by_cases hj : j < n
  · have h := testBit_placeBits_of_eq (revIndex n) bit (revIndex_lt hj) fun k hk e => by
      unfold revIndex at e ⊢; omega
    rw [revIndex_revIndex hj] at h
    simpa [hj] using h
  · simpa [hj] using testBit_placeBits_of_ne (revIndex n) bit (n := n) (j := j) fun i hi => by
      unfold revIndex; omega

/-! ## Counts and sums -/

theorem popcount_le (n : Nat) (x : Nat) : popcount n x ≤ n := by
  induction n with
  | zero => simp [popcount]
  | succ n ih =>
    have := Bool.toNat_le (x.testBit n)
    simp only [popcount]; omega

/-- The count is the number of set positions (R11). -/
theorem popcount_eq_length (n : Nat) (x : Nat) :
    popcount n x = ((List.range n).filter fun j => x.testBit j).length := by
  induction n with
  | zero => rfl
  | succ n ih =>
    rw [popcount, ih, List.range_succ, List.filter_append, List.length_append]
    cases h : x.testBit n <;> simp [h]

/-- The parity is the XOR of the bits (R11). -/
theorem parity_eq_xorSum (n : Nat) (x : Nat) : parity n x = xorSum (fun j => x.testBit j) n := by
  unfold parity
  induction n with
  | zero => rfl
  | succ n ih =>
    rw [xorSum, ← ih, popcount]
    have h := Nat.mod_two_eq_zero_or_one (popcount n x)
    cases x.testBit n <;> rcases h with h | h <;> simp [h, Nat.add_mod]

theorem xorSum_congr {f g : Nat → Bool} {n : Nat} (h : ∀ i, i < n → f i = g i) :
    xorSum f n = xorSum g n := by
  induction n with
  | zero => rfl
  | succ n ih => rw [xorSum, xorSum, ih fun i hi => h i (by omega), h n (by omega)]

/-! ## The scan -/

/-- The scan finds nothing exactly when no bit below `n` is set. -/
theorem lowestSet_eq_none (n : Nat) (t : Nat) :
    lowestSet n t = none ↔ ∀ j, j < n → t.testBit j = false := by
  induction n with
  | zero => simp [lowestSet]
  | succ n ih =>
    rw [lowestSet, Option.or_eq_none_iff, ih]
    constructor
    · rintro ⟨h, hn⟩ j hj
      rcases Nat.lt_succ_iff_lt_or_eq.mp hj with hj | rfl
      · exact h j hj
      · by_contra hc
        simp [hc] at hn
    · intro h
      exact ⟨fun j hj => h j (by omega), by simp [h n (by omega)]⟩

/-- What the scan finds is the lowest set position. -/
theorem lowestSet_eq_some {n : Nat} {t : Nat} {d : Nat} :
    lowestSet n t = some d ↔ d < n ∧ t.testBit d = true ∧ ∀ j, j < d → t.testBit j = false := by
  induction n with
  | zero => simp [lowestSet]
  | succ n ih =>
    rw [lowestSet]
    cases hl : lowestSet n t with
    | some e =>
      simp only [Option.some_or, Option.some.injEq]
      rw [hl] at ih
      constructor
      · rintro rfl
        obtain ⟨h1, h2, h3⟩ := ih.mp rfl
        exact ⟨by omega, h2, h3⟩
      · rintro ⟨h1, h2, h3⟩
        by_cases hd : d < n
        · have := ih.mpr ⟨hd, h2, h3⟩
          simpa using this
        · obtain rfl : d = n := by omega
          exact absurd ((lowestSet_eq_none d t).mpr fun j hj => h3 j hj) (by simp [hl])
    | none =>
      have hz := (lowestSet_eq_none n t).mp hl
      simp only [Option.none_or]
      constructor
      · intro h
        split at h
        · obtain rfl := by simpa using h
          exact ⟨by omega, ‹_›, hz⟩
        · simp at h
      · rintro ⟨h1, h2, h3⟩
        by_cases hd : d < n
        · simp [hz d hd] at h2
        · obtain rfl : d = n := by omega
          simp [h2]

end Sys2Proof.Machine
end

