-- ==== Sys2Proof/Laws/Encoding.lean ====
section
/-!
SUPPORT. The fields of an encoded word: what the decoder cuts out of a word that a format builds (30_encoding.md R71 to
R74).
-/

namespace Sys2Proof

/-! ## Fields of format V -/

section
variable (op : BitVec 6) (vd va vb : VReg) (mb : BankCode) (sd sa : SReg)

@[simp] theorem opcodeField_formatV : opcodeField (formatV op vd va vb mb sd sa) = op := by
  apply BitVec.eq_of_getLsbD_eq
  intro i hi
  simp only [opcodeField, formatV, BitVec.getLsbD_extractLsb', BitVec.getLsbD_append]
  interval_cases i <;> simp

@[simp] theorem vdField_formatV : vdField (formatV op vd va vb mb sd sa) = vd := by
  apply BitVec.eq_of_getLsbD_eq
  intro i hi
  simp only [vdField, formatV, BitVec.getLsbD_extractLsb', BitVec.getLsbD_append]
  interval_cases i <;> simp

@[simp] theorem vaField_formatV : vaField (formatV op vd va vb mb sd sa) = va := by
  apply BitVec.eq_of_getLsbD_eq
  intro i hi
  simp only [vaField, formatV, BitVec.getLsbD_extractLsb', BitVec.getLsbD_append]
  interval_cases i <;> simp

@[simp] theorem vbField_formatV : vbField (formatV op vd va vb mb sd sa) = vb := by
  apply BitVec.eq_of_getLsbD_eq
  intro i hi
  simp only [vbField, formatV, BitVec.getLsbD_extractLsb', BitVec.getLsbD_append]
  interval_cases i <;> simp

@[simp] theorem mbField_formatV : mbField (formatV op vd va vb mb sd sa) = mb := by
  apply BitVec.eq_of_getLsbD_eq
  intro i hi
  simp only [mbField, formatV, BitVec.getLsbD_extractLsb', BitVec.getLsbD_append]
  interval_cases i <;> simp

@[simp] theorem sdField_formatV : sdField (formatV op vd va vb mb sd sa) = sd := by
  apply BitVec.eq_of_getLsbD_eq
  intro i hi
  simp only [sdField, formatV, BitVec.getLsbD_extractLsb', BitVec.getLsbD_append]
  interval_cases i <;> simp

@[simp] theorem saField_formatV : saField (formatV op vd va vb mb sd sa) = sa := by
  apply BitVec.eq_of_getLsbD_eq
  intro i hi
  simp only [saField, formatV, BitVec.getLsbD_extractLsb', BitVec.getLsbD_append]
  interval_cases i <;> simp

end

/-! ## Fields of formats N, I and C -/

section
variable (op : BitVec 6) (sd : SReg) (imm : BitVec 16) (ch : BitVec 8)

@[simp] theorem opcodeField_formatN : opcodeField (formatN op) = op := by
  apply BitVec.eq_of_getLsbD_eq
  intro i hi
  simp only [opcodeField, formatN, BitVec.getLsbD_extractLsb', BitVec.getLsbD_append]
  interval_cases i <;> simp

@[simp] theorem opcodeField_formatI : opcodeField (formatI op sd imm) = op := by
  apply BitVec.eq_of_getLsbD_eq
  intro i hi
  simp only [opcodeField, formatI, BitVec.getLsbD_extractLsb', BitVec.getLsbD_append]
  interval_cases i <;> simp

@[simp] theorem sdFieldI_formatI : sdFieldI (formatI op sd imm) = sd := by
  apply BitVec.eq_of_getLsbD_eq
  intro i hi
  simp only [sdFieldI, formatI, BitVec.getLsbD_extractLsb', BitVec.getLsbD_append]
  interval_cases i <;> simp

@[simp] theorem immField_formatI : immField (formatI op sd imm) = imm := by
  apply BitVec.eq_of_getLsbD_eq
  intro i hi
  simp only [immField, formatI, BitVec.getLsbD_extractLsb', BitVec.getLsbD_append]
  interval_cases i <;> simp

@[simp] theorem opcodeField_formatC : opcodeField (formatC op ch) = op := by
  apply BitVec.eq_of_getLsbD_eq
  intro i hi
  simp only [opcodeField, formatC, BitVec.getLsbD_extractLsb', BitVec.getLsbD_append]
  interval_cases i <;> simp

@[simp] theorem chField_formatC : chField (formatC op ch) = ch := by
  apply BitVec.eq_of_getLsbD_eq
  intro i hi
  simp only [chField, formatC, BitVec.getLsbD_extractLsb', BitVec.getLsbD_append]
  interval_cases i <;> simp

end

end Sys2Proof
end

