-- ==== Sys2Proof/Laws/State.lean ====
section
/-!
SUPPORT. One lemma per field of State per update, and the reads of a register after a write of a register.
-/

namespace Sys2Proof.Machine

/-! ## writeV -/

@[simp] theorem writeV_nmax (s : State) (i : VReg) (x : Nat) : (writeV s i x).nmax = s.nmax := rfl
@[simp] theorem writeV_dim (s : State) (i : VReg) (x : Nat) : (writeV s i x).dim = s.dim := rfl
@[simp] theorem writeV_v (s : State) (i : VReg) (x : Nat) : (writeV s i x).v = s.v.set i.toNat x i.isLt := rfl
@[simp] theorem writeV_mem (s : State) (i : VReg) (x : Nat) : (writeV s i x).mem = s.mem := rfl
@[simp] theorem writeV_sreg (s : State) (i : VReg) (x : Nat) : (writeV s i x).sreg = s.sreg := rfl
@[simp] theorem writeV_z (s : State) (i : VReg) (x : Nat) : (writeV s i x).z = s.z := rfl
@[simp] theorem writeV_p (s : State) (i : VReg) (x : Nat) : (writeV s i x).p = s.p := rfl
@[simp] theorem writeV_cacc (s : State) (i : VReg) (x : Nat) : (writeV s i x).cacc = s.cacc := rfl
@[simp] theorem writeV_ccnt (s : State) (i : VReg) (x : Nat) : (writeV s i x).ccnt = s.ccnt := rfl
@[simp] theorem writeV_err (s : State) (i : VReg) (x : Nat) : (writeV s i x).err = s.err := rfl
@[simp] theorem writeV_ecode (s : State) (i : VReg) (x : Nat) : (writeV s i x).ecode = s.ecode := rfl
@[simp] theorem writeV_eword (s : State) (i : VReg) (x : Nat) : (writeV s i x).eword = s.eword := rfl
@[simp] theorem writeV_ecnt (s : State) (i : VReg) (x : Nat) : (writeV s i x).ecnt = s.ecnt := rfl
@[simp] theorem writeV_cmdcnt (s : State) (i : VReg) (x : Nat) : (writeV s i x).cmdcnt = s.cmdcnt := rfl
@[simp] theorem writeV_input (s : State) (i : VReg) (x : Nat) : (writeV s i x).input = s.input := rfl

/-! ## writeS -/

@[simp] theorem writeS_nmax (s : State) (i : SReg) (x : Word) : (writeS s i x).nmax = s.nmax := rfl
@[simp] theorem writeS_dim (s : State) (i : SReg) (x : Word) : (writeS s i x).dim = s.dim := rfl
@[simp] theorem writeS_v (s : State) (i : SReg) (x : Word) : (writeS s i x).v = s.v := rfl
@[simp] theorem writeS_mem (s : State) (i : SReg) (x : Word) : (writeS s i x).mem = s.mem := rfl
@[simp] theorem writeS_sreg (s : State) (i : SReg) (x : Word) : (writeS s i x).sreg = s.sreg.set i.toNat x i.isLt := rfl
@[simp] theorem writeS_z (s : State) (i : SReg) (x : Word) : (writeS s i x).z = s.z := rfl
@[simp] theorem writeS_p (s : State) (i : SReg) (x : Word) : (writeS s i x).p = s.p := rfl
@[simp] theorem writeS_cacc (s : State) (i : SReg) (x : Word) : (writeS s i x).cacc = s.cacc := rfl
@[simp] theorem writeS_ccnt (s : State) (i : SReg) (x : Word) : (writeS s i x).ccnt = s.ccnt := rfl
@[simp] theorem writeS_err (s : State) (i : SReg) (x : Word) : (writeS s i x).err = s.err := rfl
@[simp] theorem writeS_ecode (s : State) (i : SReg) (x : Word) : (writeS s i x).ecode = s.ecode := rfl
@[simp] theorem writeS_eword (s : State) (i : SReg) (x : Word) : (writeS s i x).eword = s.eword := rfl
@[simp] theorem writeS_ecnt (s : State) (i : SReg) (x : Word) : (writeS s i x).ecnt = s.ecnt := rfl
@[simp] theorem writeS_cmdcnt (s : State) (i : SReg) (x : Word) : (writeS s i x).cmdcnt = s.cmdcnt := rfl
@[simp] theorem writeS_input (s : State) (i : SReg) (x : Word) : (writeS s i x).input = s.input := rfl

/-! ## matWrite -/

@[simp] theorem matWrite_nmax (s : State) (b : Bank) (r : Nat) (x : Nat) : (matWrite s b r x).nmax = s.nmax := rfl
@[simp] theorem matWrite_dim (s : State) (b : Bank) (r : Nat) (x : Nat) : (matWrite s b r x).dim = s.dim := rfl
@[simp] theorem matWrite_v (s : State) (b : Bank) (r : Nat) (x : Nat) : (matWrite s b r x).v = s.v := rfl
@[simp] theorem matWrite_mem (s : State) (b : Bank) (r : Nat) (x : Nat) : (matWrite s b r x).mem = storeRow s.mem b r (maskBits s.dim x) := rfl
@[simp] theorem matWrite_sreg (s : State) (b : Bank) (r : Nat) (x : Nat) : (matWrite s b r x).sreg = s.sreg := rfl
@[simp] theorem matWrite_z (s : State) (b : Bank) (r : Nat) (x : Nat) : (matWrite s b r x).z = s.z := rfl
@[simp] theorem matWrite_p (s : State) (b : Bank) (r : Nat) (x : Nat) : (matWrite s b r x).p = s.p := rfl
@[simp] theorem matWrite_cacc (s : State) (b : Bank) (r : Nat) (x : Nat) : (matWrite s b r x).cacc = s.cacc := rfl
@[simp] theorem matWrite_ccnt (s : State) (b : Bank) (r : Nat) (x : Nat) : (matWrite s b r x).ccnt = s.ccnt := rfl
@[simp] theorem matWrite_err (s : State) (b : Bank) (r : Nat) (x : Nat) : (matWrite s b r x).err = s.err := rfl
@[simp] theorem matWrite_ecode (s : State) (b : Bank) (r : Nat) (x : Nat) : (matWrite s b r x).ecode = s.ecode := rfl
@[simp] theorem matWrite_eword (s : State) (b : Bank) (r : Nat) (x : Nat) : (matWrite s b r x).eword = s.eword := rfl
@[simp] theorem matWrite_ecnt (s : State) (b : Bank) (r : Nat) (x : Nat) : (matWrite s b r x).ecnt = s.ecnt := rfl
@[simp] theorem matWrite_cmdcnt (s : State) (b : Bank) (r : Nat) (x : Nat) : (matWrite s b r x).cmdcnt = s.cmdcnt := rfl
@[simp] theorem matWrite_input (s : State) (b : Bank) (r : Nat) (x : Nat) : (matWrite s b r x).input = s.input := rfl

/-! ## clearCodec -/

@[simp] theorem clearCodec_nmax (s : State) : (clearCodec s).nmax = s.nmax := rfl
@[simp] theorem clearCodec_dim (s : State) : (clearCodec s).dim = s.dim := rfl
@[simp] theorem clearCodec_v (s : State) : (clearCodec s).v = s.v := rfl
@[simp] theorem clearCodec_mem (s : State) : (clearCodec s).mem = s.mem := rfl
@[simp] theorem clearCodec_sreg (s : State) : (clearCodec s).sreg = s.sreg := rfl
@[simp] theorem clearCodec_z (s : State) : (clearCodec s).z = s.z := rfl
@[simp] theorem clearCodec_p (s : State) : (clearCodec s).p = s.p := rfl
@[simp] theorem clearCodec_cacc (s : State) : (clearCodec s).cacc = 0 := rfl
@[simp] theorem clearCodec_ccnt (s : State) : (clearCodec s).ccnt = 0 := rfl
@[simp] theorem clearCodec_err (s : State) : (clearCodec s).err = s.err := rfl
@[simp] theorem clearCodec_ecode (s : State) : (clearCodec s).ecode = s.ecode := rfl
@[simp] theorem clearCodec_eword (s : State) : (clearCodec s).eword = s.eword := rfl
@[simp] theorem clearCodec_ecnt (s : State) : (clearCodec s).ecnt = s.ecnt := rfl
@[simp] theorem clearCodec_cmdcnt (s : State) : (clearCodec s).cmdcnt = s.cmdcnt := rfl
@[simp] theorem clearCodec_input (s : State) : (clearCodec s).input = s.input := rfl

/-! ## clearCase -/

@[simp] theorem clearCase_nmax (s : State) : (clearCase s).nmax = s.nmax := rfl
@[simp] theorem clearCase_dim (s : State) : (clearCase s).dim = s.dim := rfl
@[simp] theorem clearCase_v (s : State) : (clearCase s).v = Vector.replicate 8 0 := rfl
@[simp] theorem clearCase_mem (s : State) : (clearCase s).mem = Memory.empty := rfl
@[simp] theorem clearCase_sreg (s : State) : (clearCase s).sreg = s.sreg := rfl
@[simp] theorem clearCase_z (s : State) : (clearCase s).z = s.z := rfl
@[simp] theorem clearCase_p (s : State) : (clearCase s).p = s.p := rfl
@[simp] theorem clearCase_cacc (s : State) : (clearCase s).cacc = 0 := rfl
@[simp] theorem clearCase_ccnt (s : State) : (clearCase s).ccnt = 0 := rfl
@[simp] theorem clearCase_err (s : State) : (clearCase s).err = s.err := rfl
@[simp] theorem clearCase_ecode (s : State) : (clearCase s).ecode = s.ecode := rfl
@[simp] theorem clearCase_eword (s : State) : (clearCase s).eword = s.eword := rfl
@[simp] theorem clearCase_ecnt (s : State) : (clearCase s).ecnt = s.ecnt := rfl
@[simp] theorem clearCase_cmdcnt (s : State) : (clearCase s).cmdcnt = s.cmdcnt := rfl
@[simp] theorem clearCase_input (s : State) : (clearCase s).input = s.input := rfl

/-! ## writeCountFlags -/

@[simp] theorem writeCountFlags_nmax (s : State) (n : Nat) : (writeCountFlags s n).nmax = s.nmax := rfl
@[simp] theorem writeCountFlags_dim (s : State) (n : Nat) : (writeCountFlags s n).dim = s.dim := rfl
@[simp] theorem writeCountFlags_v (s : State) (n : Nat) : (writeCountFlags s n).v = s.v := rfl
@[simp] theorem writeCountFlags_mem (s : State) (n : Nat) : (writeCountFlags s n).mem = s.mem := rfl
@[simp] theorem writeCountFlags_sreg (s : State) (n : Nat) : (writeCountFlags s n).sreg = s.sreg := rfl
@[simp] theorem writeCountFlags_z (s : State) (n : Nat) : (writeCountFlags s n).z = (n == 0) := rfl
@[simp] theorem writeCountFlags_p (s : State) (n : Nat) : (writeCountFlags s n).p = (n % 2 == 1) := rfl
@[simp] theorem writeCountFlags_cacc (s : State) (n : Nat) : (writeCountFlags s n).cacc = s.cacc := rfl
@[simp] theorem writeCountFlags_ccnt (s : State) (n : Nat) : (writeCountFlags s n).ccnt = s.ccnt := rfl
@[simp] theorem writeCountFlags_err (s : State) (n : Nat) : (writeCountFlags s n).err = s.err := rfl
@[simp] theorem writeCountFlags_ecode (s : State) (n : Nat) : (writeCountFlags s n).ecode = s.ecode := rfl
@[simp] theorem writeCountFlags_eword (s : State) (n : Nat) : (writeCountFlags s n).eword = s.eword := rfl
@[simp] theorem writeCountFlags_ecnt (s : State) (n : Nat) : (writeCountFlags s n).ecnt = s.ecnt := rfl
@[simp] theorem writeCountFlags_cmdcnt (s : State) (n : Nat) : (writeCountFlags s n).cmdcnt = s.cmdcnt := rfl
@[simp] theorem writeCountFlags_input (s : State) (n : Nat) : (writeCountFlags s n).input = s.input := rfl

/-! ## writeZ -/

@[simp] theorem writeZ_nmax (s : State) (f : Bool) : (writeZ s f).nmax = s.nmax := rfl
@[simp] theorem writeZ_dim (s : State) (f : Bool) : (writeZ s f).dim = s.dim := rfl
@[simp] theorem writeZ_v (s : State) (f : Bool) : (writeZ s f).v = s.v := rfl
@[simp] theorem writeZ_mem (s : State) (f : Bool) : (writeZ s f).mem = s.mem := rfl
@[simp] theorem writeZ_sreg (s : State) (f : Bool) : (writeZ s f).sreg = s.sreg := rfl
@[simp] theorem writeZ_z (s : State) (f : Bool) : (writeZ s f).z = f := rfl
@[simp] theorem writeZ_p (s : State) (f : Bool) : (writeZ s f).p = s.p := rfl
@[simp] theorem writeZ_cacc (s : State) (f : Bool) : (writeZ s f).cacc = s.cacc := rfl
@[simp] theorem writeZ_ccnt (s : State) (f : Bool) : (writeZ s f).ccnt = s.ccnt := rfl
@[simp] theorem writeZ_err (s : State) (f : Bool) : (writeZ s f).err = s.err := rfl
@[simp] theorem writeZ_ecode (s : State) (f : Bool) : (writeZ s f).ecode = s.ecode := rfl
@[simp] theorem writeZ_eword (s : State) (f : Bool) : (writeZ s f).eword = s.eword := rfl
@[simp] theorem writeZ_ecnt (s : State) (f : Bool) : (writeZ s f).ecnt = s.ecnt := rfl
@[simp] theorem writeZ_cmdcnt (s : State) (f : Bool) : (writeZ s f).cmdcnt = s.cmdcnt := rfl
@[simp] theorem writeZ_input (s : State) (f : Bool) : (writeZ s f).input = s.input := rfl

/-! ## errorEntry -/

@[simp] theorem errorEntry_nmax (c : ErrorCode) (w : Word) (s : State) : (errorEntry c w s).nmax = s.nmax := rfl
@[simp] theorem errorEntry_dim (c : ErrorCode) (w : Word) (s : State) : (errorEntry c w s).dim = s.dim := rfl
@[simp] theorem errorEntry_v (c : ErrorCode) (w : Word) (s : State) : (errorEntry c w s).v = s.v := rfl
@[simp] theorem errorEntry_mem (c : ErrorCode) (w : Word) (s : State) : (errorEntry c w s).mem = s.mem := rfl
@[simp] theorem errorEntry_sreg (c : ErrorCode) (w : Word) (s : State) : (errorEntry c w s).sreg = s.sreg := rfl
@[simp] theorem errorEntry_z (c : ErrorCode) (w : Word) (s : State) : (errorEntry c w s).z = s.z := rfl
@[simp] theorem errorEntry_p (c : ErrorCode) (w : Word) (s : State) : (errorEntry c w s).p = s.p := rfl
@[simp] theorem errorEntry_cacc (c : ErrorCode) (w : Word) (s : State) : (errorEntry c w s).cacc = s.cacc := rfl
@[simp] theorem errorEntry_ccnt (c : ErrorCode) (w : Word) (s : State) : (errorEntry c w s).ccnt = s.ccnt := rfl
@[simp] theorem errorEntry_err (c : ErrorCode) (w : Word) (s : State) : (errorEntry c w s).err = true := rfl
@[simp] theorem errorEntry_ecode (c : ErrorCode) (w : Word) (s : State) : (errorEntry c w s).ecode = some c := rfl
@[simp] theorem errorEntry_eword (c : ErrorCode) (w : Word) (s : State) : (errorEntry c w s).eword = w := rfl
@[simp] theorem errorEntry_ecnt (c : ErrorCode) (w : Word) (s : State) : (errorEntry c w s).ecnt = s.cmdcnt := rfl
@[simp] theorem errorEntry_cmdcnt (c : ErrorCode) (w : Word) (s : State) : (errorEntry c w s).cmdcnt = s.cmdcnt := rfl
@[simp] theorem errorEntry_input (c : ErrorCode) (w : Word) (s : State) : (errorEntry c w s).input = s.input := rfl

/-! ## countWord -/

@[simp] theorem countWord_nmax (s : State) : (countWord s).nmax = s.nmax := rfl
@[simp] theorem countWord_dim (s : State) : (countWord s).dim = s.dim := rfl
@[simp] theorem countWord_v (s : State) : (countWord s).v = s.v := rfl
@[simp] theorem countWord_mem (s : State) : (countWord s).mem = s.mem := rfl
@[simp] theorem countWord_sreg (s : State) : (countWord s).sreg = s.sreg := rfl
@[simp] theorem countWord_z (s : State) : (countWord s).z = s.z := rfl
@[simp] theorem countWord_p (s : State) : (countWord s).p = s.p := rfl
@[simp] theorem countWord_cacc (s : State) : (countWord s).cacc = s.cacc := rfl
@[simp] theorem countWord_ccnt (s : State) : (countWord s).ccnt = s.ccnt := rfl
@[simp] theorem countWord_err (s : State) : (countWord s).err = s.err := rfl
@[simp] theorem countWord_ecode (s : State) : (countWord s).ecode = s.ecode := rfl
@[simp] theorem countWord_eword (s : State) : (countWord s).eword = s.eword := rfl
@[simp] theorem countWord_ecnt (s : State) : (countWord s).ecnt = s.ecnt := rfl
@[simp] theorem countWord_cmdcnt (s : State) : (countWord s).cmdcnt = s.cmdcnt + 1 := rfl
@[simp] theorem countWord_input (s : State) : (countWord s).input = s.input := rfl

/-! ## resetBlock -/

@[simp] theorem resetBlock_nmax (s : State) : (resetBlock s).nmax = s.nmax := rfl
@[simp] theorem resetBlock_dim (s : State) : (resetBlock s).dim = 0 := rfl
@[simp] theorem resetBlock_v (s : State) : (resetBlock s).v = Vector.replicate 8 0 := rfl
@[simp] theorem resetBlock_mem (s : State) : (resetBlock s).mem = Memory.empty := rfl
@[simp] theorem resetBlock_sreg (s : State) : (resetBlock s).sreg = Vector.replicate 4 0 := rfl
@[simp] theorem resetBlock_z (s : State) : (resetBlock s).z = false := rfl
@[simp] theorem resetBlock_p (s : State) : (resetBlock s).p = false := rfl
@[simp] theorem resetBlock_cacc (s : State) : (resetBlock s).cacc = 0 := rfl
@[simp] theorem resetBlock_ccnt (s : State) : (resetBlock s).ccnt = 0 := rfl
@[simp] theorem resetBlock_err (s : State) : (resetBlock s).err = false := rfl
@[simp] theorem resetBlock_ecode (s : State) : (resetBlock s).ecode = none := rfl
@[simp] theorem resetBlock_eword (s : State) : (resetBlock s).eword = 0 := rfl
@[simp] theorem resetBlock_ecnt (s : State) : (resetBlock s).ecnt = 0 := rfl
@[simp] theorem resetBlock_cmdcnt (s : State) : (resetBlock s).cmdcnt = 0 := rfl
@[simp] theorem resetBlock_input (s : State) : (resetBlock s).input = s.input := rfl

/-! ## submitWord -/

@[simp] theorem submitWord_nmax (s : State) (w : Word) : (submitWord s w).nmax = s.nmax := rfl
@[simp] theorem submitWord_dim (s : State) (w : Word) : (submitWord s w).dim = s.dim := rfl
@[simp] theorem submitWord_v (s : State) (w : Word) : (submitWord s w).v = s.v := rfl
@[simp] theorem submitWord_mem (s : State) (w : Word) : (submitWord s w).mem = s.mem := rfl
@[simp] theorem submitWord_sreg (s : State) (w : Word) : (submitWord s w).sreg = s.sreg := rfl
@[simp] theorem submitWord_z (s : State) (w : Word) : (submitWord s w).z = s.z := rfl
@[simp] theorem submitWord_p (s : State) (w : Word) : (submitWord s w).p = s.p := rfl
@[simp] theorem submitWord_cacc (s : State) (w : Word) : (submitWord s w).cacc = s.cacc := rfl
@[simp] theorem submitWord_ccnt (s : State) (w : Word) : (submitWord s w).ccnt = s.ccnt := rfl
@[simp] theorem submitWord_err (s : State) (w : Word) : (submitWord s w).err = s.err := rfl
@[simp] theorem submitWord_ecode (s : State) (w : Word) : (submitWord s w).ecode = s.ecode := rfl
@[simp] theorem submitWord_eword (s : State) (w : Word) : (submitWord s w).eword = s.eword := rfl
@[simp] theorem submitWord_ecnt (s : State) (w : Word) : (submitWord s w).ecnt = s.ecnt := rfl
@[simp] theorem submitWord_cmdcnt (s : State) (w : Word) : (submitWord s w).cmdcnt = s.cmdcnt := rfl
@[simp] theorem submitWord_input (s : State) (w : Word) : (submitWord s w).input = s.input ++ [.submit w] := rfl

/-! ## assertReset -/

@[simp] theorem assertReset_nmax (s : State) : (assertReset s).nmax = s.nmax := rfl
@[simp] theorem assertReset_dim (s : State) : (assertReset s).dim = s.dim := rfl
@[simp] theorem assertReset_v (s : State) : (assertReset s).v = s.v := rfl
@[simp] theorem assertReset_mem (s : State) : (assertReset s).mem = s.mem := rfl
@[simp] theorem assertReset_sreg (s : State) : (assertReset s).sreg = s.sreg := rfl
@[simp] theorem assertReset_z (s : State) : (assertReset s).z = s.z := rfl
@[simp] theorem assertReset_p (s : State) : (assertReset s).p = s.p := rfl
@[simp] theorem assertReset_cacc (s : State) : (assertReset s).cacc = s.cacc := rfl
@[simp] theorem assertReset_ccnt (s : State) : (assertReset s).ccnt = s.ccnt := rfl
@[simp] theorem assertReset_err (s : State) : (assertReset s).err = s.err := rfl
@[simp] theorem assertReset_ecode (s : State) : (assertReset s).ecode = s.ecode := rfl
@[simp] theorem assertReset_eword (s : State) : (assertReset s).eword = s.eword := rfl
@[simp] theorem assertReset_ecnt (s : State) : (assertReset s).ecnt = s.ecnt := rfl
@[simp] theorem assertReset_cmdcnt (s : State) : (assertReset s).cmdcnt = s.cmdcnt := rfl
@[simp] theorem assertReset_input (s : State) : (assertReset s).input = s.input ++ [.reset] := rfl

/-! ## placeNext -/

@[simp] theorem placeNext_nmax (s : State) (w : Word) : (placeNext s w).nmax = s.nmax := rfl
@[simp] theorem placeNext_dim (s : State) (w : Word) : (placeNext s w).dim = s.dim := rfl
@[simp] theorem placeNext_v (s : State) (w : Word) : (placeNext s w).v = s.v := rfl
@[simp] theorem placeNext_mem (s : State) (w : Word) : (placeNext s w).mem = s.mem := rfl
@[simp] theorem placeNext_sreg (s : State) (w : Word) : (placeNext s w).sreg = s.sreg := rfl
@[simp] theorem placeNext_z (s : State) (w : Word) : (placeNext s w).z = s.z := rfl
@[simp] theorem placeNext_p (s : State) (w : Word) : (placeNext s w).p = s.p := rfl
@[simp] theorem placeNext_cacc (s : State) (w : Word) : (placeNext s w).cacc = s.cacc := rfl
@[simp] theorem placeNext_ccnt (s : State) (w : Word) : (placeNext s w).ccnt = s.ccnt := rfl
@[simp] theorem placeNext_err (s : State) (w : Word) : (placeNext s w).err = s.err := rfl
@[simp] theorem placeNext_ecode (s : State) (w : Word) : (placeNext s w).ecode = s.ecode := rfl
@[simp] theorem placeNext_eword (s : State) (w : Word) : (placeNext s w).eword = s.eword := rfl
@[simp] theorem placeNext_ecnt (s : State) (w : Word) : (placeNext s w).ecnt = s.ecnt := rfl
@[simp] theorem placeNext_cmdcnt (s : State) (w : Word) : (placeNext s w).cmdcnt = s.cmdcnt := rfl
@[simp] theorem placeNext_input (s : State) (w : Word) : (placeNext s w).input = .submit w :: s.input := rfl

/-! ## State.resetFor -/

@[simp] theorem resetFor_nmax (n : Nat) : (State.resetFor n).nmax = n := rfl
@[simp] theorem resetFor_dim (n : Nat) : (State.resetFor n).dim = 0 := rfl
@[simp] theorem resetFor_v (n : Nat) : (State.resetFor n).v = Vector.replicate 8 0 := rfl
@[simp] theorem resetFor_mem (n : Nat) : (State.resetFor n).mem = Memory.empty := rfl
@[simp] theorem resetFor_sreg (n : Nat) : (State.resetFor n).sreg = Vector.replicate 4 0 := rfl
@[simp] theorem resetFor_z (n : Nat) : (State.resetFor n).z = false := rfl
@[simp] theorem resetFor_p (n : Nat) : (State.resetFor n).p = false := rfl
@[simp] theorem resetFor_cacc (n : Nat) : (State.resetFor n).cacc = 0 := rfl
@[simp] theorem resetFor_ccnt (n : Nat) : (State.resetFor n).ccnt = 0 := rfl
@[simp] theorem resetFor_err (n : Nat) : (State.resetFor n).err = false := rfl
@[simp] theorem resetFor_ecode (n : Nat) : (State.resetFor n).ecode = none := rfl
@[simp] theorem resetFor_eword (n : Nat) : (State.resetFor n).eword = 0 := rfl
@[simp] theorem resetFor_ecnt (n : Nat) : (State.resetFor n).ecnt = 0 := rfl
@[simp] theorem resetFor_cmdcnt (n : Nat) : (State.resetFor n).cmdcnt = 0 := rfl
@[simp] theorem resetFor_input (n : Nat) : (State.resetFor n).input = [] := rfl

/-! ## Registers -/

/-- The vector registers decide every read of one. -/
theorem readV_congr {s t : State} (h : t.v = s.v) (i : VReg) : readV t i = readV s i := by
  simp only [readV, h]

/-- The scalar registers decide every read of one. -/
theorem readS_congr {s t : State} (h : t.sreg = s.sreg) (i : SReg) : readS t i = readS s i := by
  simp only [readS, h]

theorem readV_writeV (s : State) (i j : VReg) (x : Nat) :
    readV (writeV s i x) j = if j = i then x else readV s j := by
  simp only [readV, writeV_v, Vector.getElem_set, BitVec.toNat_inj, eq_comm]

@[simp] theorem readV_writeV_self (s : State) (i : VReg) (x : Nat) : readV (writeV s i x) i = x := by
  simp [readV_writeV]

theorem readV_writeV_ne (s : State) {i j : VReg} (x : Nat) (h : j ≠ i) :
    readV (writeV s i x) j = readV s j := by
  simp [readV_writeV, h]

theorem readS_writeS (s : State) (i j : SReg) (x : Word) :
    readS (writeS s i x) j = if j = i then x else readS s j := by
  simp only [readS, writeS_sreg, Vector.getElem_set, BitVec.toNat_inj, eq_comm]

@[simp] theorem readS_writeS_self (s : State) (i : SReg) (x : Word) : readS (writeS s i x) i = x := by
  simp [readS_writeS]

theorem readS_writeS_ne (s : State) {i j : SReg} (x : Word) (h : j ≠ i) :
    readS (writeS s i x) j = readS s j := by
  simp [readS_writeS, h]

/-! ### Registers through the other updates -/

@[simp] theorem readS_writeV (s : State) (i : VReg) (x : Nat) (j : SReg) : readS (writeV s i x) j = readS s j := rfl
@[simp] theorem readV_writeS (s : State) (i : SReg) (x : Word) (j : VReg) : readV (writeS s i x) j = readV s j := rfl
@[simp] theorem readV_matWrite (s : State) (b : Bank) (r : Nat) (x : Nat) (j : VReg) : readV (matWrite s b r x) j = readV s j := rfl
@[simp] theorem readS_matWrite (s : State) (b : Bank) (r : Nat) (x : Nat) (j : SReg) : readS (matWrite s b r x) j = readS s j := rfl
@[simp] theorem readV_clearCodec (s : State) (j : VReg) : readV (clearCodec s) j = readV s j := rfl
@[simp] theorem readS_clearCodec (s : State) (j : SReg) : readS (clearCodec s) j = readS s j := rfl
@[simp] theorem readV_clearCase (s : State) (j : VReg) : readV (clearCase s) j = 0 := by
  simp [readV]
@[simp] theorem readS_clearCase (s : State) (j : SReg) : readS (clearCase s) j = readS s j := rfl
@[simp] theorem readV_writeCountFlags (s : State) (n : Nat) (j : VReg) : readV (writeCountFlags s n) j = readV s j := rfl
@[simp] theorem readS_writeCountFlags (s : State) (n : Nat) (j : SReg) : readS (writeCountFlags s n) j = readS s j := rfl
@[simp] theorem readV_writeZ (s : State) (f : Bool) (j : VReg) : readV (writeZ s f) j = readV s j := rfl
@[simp] theorem readS_writeZ (s : State) (f : Bool) (j : SReg) : readS (writeZ s f) j = readS s j := rfl
@[simp] theorem readV_errorEntry (c : ErrorCode) (w : Word) (s : State) (j : VReg) : readV (errorEntry c w s) j = readV s j := rfl
@[simp] theorem readS_errorEntry (c : ErrorCode) (w : Word) (s : State) (j : SReg) : readS (errorEntry c w s) j = readS s j := rfl
@[simp] theorem readV_countWord (s : State) (j : VReg) : readV (countWord s) j = readV s j := rfl
@[simp] theorem readS_countWord (s : State) (j : SReg) : readS (countWord s) j = readS s j := rfl
@[simp] theorem readV_resetBlock (s : State) (j : VReg) : readV (resetBlock s) j = 0 := by
  simp [readV]
@[simp] theorem readS_resetBlock (s : State) (j : SReg) : readS (resetBlock s) j = 0 := by
  simp [readS]
@[simp] theorem readV_submitWord (s : State) (w : Word) (j : VReg) : readV (submitWord s w) j = readV s j := rfl
@[simp] theorem readS_submitWord (s : State) (w : Word) (j : SReg) : readS (submitWord s w) j = readS s j := rfl
@[simp] theorem readV_assertReset (s : State) (j : VReg) : readV (assertReset s) j = readV s j := rfl
@[simp] theorem readS_assertReset (s : State) (j : SReg) : readS (assertReset s) j = readS s j := rfl
@[simp] theorem readV_placeNext (s : State) (w : Word) (j : VReg) : readV (placeNext s w) j = readV s j := rfl
@[simp] theorem readS_placeNext (s : State) (w : Word) (j : SReg) : readS (placeNext s w) j = readS s j := rfl

@[simp] theorem readV_resetFor (n : Nat) (j : VReg) : readV (State.resetFor n) j = 0 := by
  simp [readV]

@[simp] theorem readS_resetFor (n : Nat) (j : SReg) : readS (State.resetFor n) j = 0 := by
  simp [readS]

end Sys2Proof.Machine
end

