-- ==== Sys2Proof/Laws/Memory.lean ====
section
/-!
SUPPORT. The row space: a read after a write, the canonical form kept by every memory operation, and what the invariant
says of a row that is read.
-/

namespace Sys2Proof.Machine

/-! ## One bank's list -/

theorem readRow_listRow (r q : Nat) (x : Nat) (rest : List (Nat × Nat)) (h : r = q → readRow rest q = 0) :
    readRow (listRow r x rest) q = if r = q then x else readRow rest q := by
  unfold listRow
  by_cases hx : x = 0
  · by_cases hq : r = q <;> simp_all
  · simp [hx, readRow]

/-- A row below every listed row reads as 0. -/
theorem readRow_eq_zero {rows : List (Nat × Nat)} {low r : Nat} (h : rowsWf low rows = true) (hr : r < low) :
    readRow rows r = 0 := by
  induction rows generalizing low with
  | nil => rfl
  | cons p rest ih =>
    obtain ⟨k, x⟩ := p
    simp only [rowsWf, Bool.and_eq_true, decide_eq_true_eq] at h
    rw [readRow, if_neg (by omega)]
    exact ih h.2 (by omega)

/-- Reading another row than the one written gives what it gave before, canonical form or not. -/
theorem readRow_writeRow_ne (rows : List (Nat × Nat)) {r q : Nat} (x : Nat) (h : q ≠ r) :
    readRow (writeRow rows r x) q = readRow rows q := by
  induction rows with
  | nil => rw [writeRow, readRow_listRow _ _ _ _ fun e => absurd e.symm h, if_neg (Ne.symm h)]
  | cons p rest ih =>
    obtain ⟨k, y⟩ := p
    unfold writeRow
    split
    · rw [readRow_listRow _ _ _ _ fun e => absurd e.symm h, if_neg (Ne.symm h)]
    · split
      · subst_vars
        rw [readRow_listRow _ _ _ _ fun e => absurd e.symm h, if_neg (Ne.symm h), readRow, if_neg (Ne.symm h)]
      · simp only [readRow, ih]

/-- Reading the row written gives the value written. -/
theorem readRow_writeRow_self {rows : List (Nat × Nat)} {low : Nat} (h : rowsWf low rows = true) (r : Nat)
    (x : Nat) : readRow (writeRow rows r x) r = x := by
  induction rows generalizing low with
  | nil => rw [writeRow, readRow_listRow _ _ _ _ fun _ => rfl, if_pos rfl]
  | cons p rest ih =>
    obtain ⟨k, y⟩ := p
    simp only [rowsWf, Bool.and_eq_true, decide_eq_true_eq] at h
    unfold writeRow
    split
    · rw [readRow_listRow, if_pos rfl]
      intro _
      rw [readRow, if_neg (by omega)]
      exact readRow_eq_zero h.2 (by omega)
    · split
      · subst_vars
        rw [readRow_listRow, if_pos rfl]
        exact fun _ => readRow_eq_zero h.2 (by omega)
      · rw [readRow, if_neg (by omega)]
        exact ih h.2

theorem rowsWf_mono {rows : List (Nat × Nat)} {low low' : Nat} (h : rowsWf low rows = true) (hl : low' ≤ low) :
    rowsWf low' rows = true := by
  cases rows with
  | nil => rfl
  | cons p rest =>
    obtain ⟨k, x⟩ := p
    simp only [rowsWf, Bool.and_eq_true, decide_eq_true_eq] at h ⊢
    exact ⟨⟨by omega, h.1.2⟩, h.2⟩

theorem rowsWf_listRow {rest : List (Nat × Nat)} {low r : Nat} (x : Nat) (hr : low ≤ r)
    (h : rowsWf (r + 1) rest = true) : rowsWf low (listRow r x rest) = true := by
  unfold listRow
  split
  · exact rowsWf_mono h (by omega)
  · simp_all [rowsWf]

/-- Writing a row keeps the canonical form. -/
theorem rowsWf_writeRow {rows : List (Nat × Nat)} {low r : Nat} (x : Nat) (hr : low ≤ r)
    (h : rowsWf low rows = true) : rowsWf low (writeRow rows r x) = true := by
  induction rows generalizing low with
  | nil => exact rowsWf_listRow x hr rfl
  | cons p rest ih =>
    obtain ⟨k, y⟩ := p
    have hp := h
    simp only [rowsWf, Bool.and_eq_true, decide_eq_true_eq] at hp
    unfold writeRow
    split
    · refine rowsWf_listRow x hr ?_
      simp only [rowsWf, Bool.and_eq_true, decide_eq_true_eq]
      exact ⟨⟨by omega, hp.1.2⟩, hp.2⟩
    · split
      · subst_vars
        exact rowsWf_listRow x hr hp.2
      · simp only [rowsWf, Bool.and_eq_true, decide_eq_true_eq]
        exact ⟨hp.1, ih (by omega) hp.2⟩

/-- What is listed after a write was listed before, or is the row written. -/
theorem mem_writeRow {rows : List (Nat × Nat)} {r : Nat} {x : Nat} {p : Nat × Nat}
    (h : p ∈ writeRow rows r x) : p ∈ rows ∨ p = (r, x) := by
  have hlist : ∀ rest : List (Nat × Nat), p ∈ listRow r x rest → p ∈ rest ∨ p = (r, x) := by
    intro rest hm
    unfold listRow at hm
    split at hm
    · exact .inl hm
    · simpa [or_comm] using hm
  induction rows with
  | nil => exact hlist [] h
  | cons q rest ih =>
    obtain ⟨k, y⟩ := q
    unfold writeRow at h
    split at h
    · exact hlist _ h
    · split at h
      · rcases hlist _ h with h | h
        · exact .inl (List.mem_cons_of_mem _ h)
        · exact .inr h
      · rcases List.mem_cons.mp h with h | h
        · exact .inl (by simp [h])
        · rcases ih h with h | h
          · exact .inl (List.mem_cons_of_mem _ h)
          · exact .inr h

/-- A row that is read is 0 or is listed. -/
theorem readRow_mem (rows : List (Nat × Nat)) (r : Nat) :
    readRow rows r = 0 ∨ (r, readRow rows r) ∈ rows := by
  induction rows with
  | nil => exact .inl rfl
  | cons p rest ih =>
    obtain ⟨k, x⟩ := p
    rw [readRow]
    split
    · subst_vars
      exact .inr (by simp)
    · rcases ih with h | h
      · exact .inl h
      · exact .inr (List.mem_cons_of_mem _ h)

/-! ## The row space -/

@[simp] theorem matRead_empty (b : Bank) (r : Nat) : matRead Memory.empty b r = 0 := by
  cases b <;> rfl

/-- The row written reads as the value written (20_memory.md R52). -/
theorem matRead_storeRow_self {m : Memory} (h : m.wf = true) (b : Bank) (r : Nat) (x : Nat) :
    matRead (storeRow m b r x) b r = x := by
  simp only [Memory.wf, Bool.and_eq_true] at h
  cases b
  · exact readRow_writeRow_self h.1.1 r x
  · exact readRow_writeRow_self h.1.2 r x
  · exact readRow_writeRow_self h.2 r x

/-- Every other row of every bank reads as before. -/
theorem matRead_storeRow_ne (m : Memory) {b b' : Bank} {r r' : Nat} (x : Nat) (h : ¬(b' = b ∧ r' = r)) :
    matRead (storeRow m b r x) b' r' = matRead m b' r' := by
  cases b <;> cases b' <;>
    first
    | rfl
    | exact readRow_writeRow_ne _ x fun e => h ⟨rfl, e⟩

/-- Writing a row keeps the canonical form. -/
theorem wf_storeRow {m : Memory} (h : m.wf = true) (b : Bank) (r : Nat) (x : Nat) :
    (storeRow m b r x).wf = true := by
  simp only [Memory.wf, Bool.and_eq_true] at h ⊢
  obtain ⟨⟨ha, hb⟩, hc⟩ := h
  cases b
  · exact ⟨⟨rowsWf_writeRow x (by omega) ha, hb⟩, hc⟩
  · exact ⟨⟨ha, rowsWf_writeRow x (by omega) hb⟩, hc⟩
  · exact ⟨⟨ha, hb⟩, rowsWf_writeRow x (by omega) hc⟩

theorem wf_empty : Memory.empty.wf = true := rfl

/-- MatWrite keeps the canonical form. -/
theorem wf_matWrite {s : State} (h : s.mem.wf = true) (b : Bank) (r : Nat) (x : Nat) :
    (matWrite s b r x).mem.wf = true := wf_storeRow h b r _

/-- The row space after reset is in the canonical form. -/
theorem wf_reset : State.reset.mem.wf = true := rfl

/-- A row of a canonical bank has no bit at or above DIM, and is 0 at or above DIM (10_state.md R27). -/
theorem matRead_canonical {s : State} (h : RowsCanonical s) (b : Bank) (r : Nat) :
    matRead s.mem b r < 2 ^ s.dim ∧ (s.dim ≤ r → matRead s.mem b r = 0) := by
  obtain ⟨-, ha, hb, hc⟩ := h
  have key : ∀ rows : List (Nat × Nat), BankCanonical s rows →
      readRow rows r < 2 ^ s.dim ∧ (s.dim ≤ r → readRow rows r = 0) := by
    intro rows hrows
    rcases readRow_mem rows r with h0 | hm
    · simp [h0]
    · have hrow := hrows _ hm
      exact ⟨hrow.2, fun hr => absurd hrow.1 (by simpa using hr)⟩
  cases b
  · exact key _ ha
  · exact key _ hb
  · exact key _ hc

end Sys2Proof.Machine
end

