-- ==== Sys2Proof/Laws/Products.lean ====
section
/-!
SUPPORT. What the codec and the vector products answer, bit by bit (41_codec.md R124, 42_gf2.md R143, R146).
-/

namespace Sys2Proof.Machine

/-! ## The codec -/

/-- Bit j of the decoded vector is bit j + sh(N) of the accumulator (R124). -/
theorem testBit_decodeDigits (n : Nat) (acc : Nat) (j : Nat) :
    (decodeDigits n acc).testBit j = (decide (j < n) && acc.testBit (j + padShift n)) :=
  testBit_placeBits_id _ n j

theorem decodeDigits_lt (n : Nat) (acc : Nat) : decodeDigits n acc < 2 ^ n :=
  canonical_of_testBit fun j hj => by simp [testBit_decodeDigits, Nat.not_lt.mpr hj]

/-- `4·MAXDIG(N) = N + sh(N)` (00_scope.md R12). -/
theorem four_maxDig (n : Nat) : 4 * maxDig n = n + padShift n := by
  unfold maxDig padShift; omega

theorem maxDig_mono {m n : Nat} (h : m ≤ n) : maxDig m ≤ maxDig n := by
  unfold maxDig; omega

/-- A digit's value is below 16 (R123). -/
theorem hexVal_lt {ch : BitVec 8} {d : Nat} (h : hexVal ch = some d) : d < 16 := by
  unfold hexVal at h
  split at h
  · simp at h; omega
  · split at h
    · simp at h; omega
    · simp at h

/-- Appending a digit multiplies the value by 16 and adds the digit, where the accumulator is wide enough (R122). -/
theorem appendDigit_eq {nmax : Nat} {acc : Nat} {d : Nat} (hd : d < 16)
    (h : 16 * acc + d < 2 ^ (4 * maxDig nmax)) : appendDigit nmax acc d = 16 * acc + d := by
  have hor : acc <<< 4 ||| d = 16 * acc + d := by
    rw [← Nat.shiftLeft_add_eq_or_of_lt (by simpa using hd : d < 2 ^ 4), Nat.shiftLeft_eq]
    omega
  rw [appendDigit, hor, maskBits_eq h]

/-- The accumulator never holds more than 4 bits a digit (41_codec.md R127). -/
theorem appendDigit_bound {acc : Nat} {d k : Nat} (hd : d < 16) (h : acc < 2 ^ (4 * k)) :
    16 * acc + d < 2 ^ (4 * (k + 1)) := by
  have : 2 ^ (4 * (k + 1)) = 16 * 2 ^ (4 * k) := by rw [Nat.mul_add, Nat.pow_add]; omega
  omega

/-! ## The products -/

/-- Bit j of MVC's result is the parity of row N-1-j AND x (R143). -/
theorem testBit_matVec (m : Memory) (b : Bank) (n : Nat) (x : Nat) (j : Nat) :
    (matVec m b n x).testBit j = (decide (j < n) && parity n (matRead m b (revIndex n j) &&& x)) :=
  testBit_placeBits_rev _ n j

theorem matVec_lt (m : Memory) (b : Bank) (n : Nat) (x : Nat) : matVec m b n x < 2 ^ n :=
  canonical_of_testBit fun j hj => by simp [testBit_matVec, Nat.not_lt.mpr hj]

theorem testBit_accumulateRows (m : Memory) (b : Bank) (n : Nat) (y : Nat) (k j : Nat) :
    (accumulateRows m b n y k).testBit j =
      xorSum (fun i => y.testBit i && (matRead m b (revIndex n i)).testBit j) k := by
  induction k with
  | zero => simp [accumulateRows, xorSum]
  | succ k ih =>
    rw [accumulateRows, xorSum]
    split <;> simp_all

/-- Bit j of VMR's result is the GF(2) sum of bit j of the rows selected by set bits (R146). -/
theorem testBit_vecMat (m : Memory) (b : Bank) (n : Nat) (y : Nat) (j : Nat) :
    (vecMat m b n y).testBit j =
      xorSum (fun i => y.testBit i && (matRead m b (revIndex n i)).testBit j) n :=
  testBit_accumulateRows m b n y n j

/-- The sum of canonical rows is canonical (R146). -/
theorem vecMat_lt {m : Memory} {b : Bank} {n : Nat} (h : ∀ r, matRead m b r < 2 ^ n) (y : Nat) :
    vecMat m b n y < 2 ^ n := by
  have key : ∀ k, accumulateRows m b n y k < 2 ^ n := by
    intro k
    induction k with
    | zero => exact Nat.two_pow_pos n
    | succ k ih =>
      rw [accumulateRows]
      split
      · exact Nat.xor_lt_two_pow ih (h _)
      · exact ih
  exact key n

end Sys2Proof.Machine
end

