-- ==== Sys2Proof/Laws/Exec.lean ====
section
/-!
SUPPORT. What one command and one step can do: every command answers a next state, which is the error entry of the first
error it raises, or its effect; every step answers a next state.
-/

namespace Sys2Proof.Machine

/-! ## Completing a command -/

@[simp] theorem complete_none (i : Instr) (s effect : State) : complete i none s effect = .next effect := rfl

@[simp] theorem complete_some (i : Instr) (c : ErrorCode) (s effect : State) :
    complete i (some c) s effect = .next (errorEntry c (encode i) s) := rfl

/-- A completed command gives its effect, or the error entry of the error its checks found. -/
theorem complete_cases {i : Instr} {check : Option ErrorCode} {s effect t : State}
    (h : complete i check s effect = .next t) :
    (check = none ∧ t = effect) ∨ ∃ c, check = some c ∧ t = errorEntry c (encode i) s := by
  cases check with
  | none => exact .inl ⟨rfl, by simpa using h.symm⟩
  | some c => exact .inr ⟨c, rfl, by simpa using h.symm⟩

/-- Bank codes 0, 1, 2 name A, B, C, and a well-formed code names a bank (30_encoding.md R75). -/
theorem bankOf_isSome (mb : BankCode) : (bankOf mb).isSome = namesBank mb := by
  revert mb; decide

theorem bankOf_of_namesBank {mb : BankCode} (h : namesBank mb = true) : ∃ b, bankOf mb = some b :=
  Option.isSome_iff_exists.mp (by rw [bankOf_isSome, h])

theorem withBank_some {mb : BankCode} {b : Bank} (h : bankOf mb = some b) (i : Instr) (s : State)
    (run : Bank → Host.Outcome State Fault Refusal) : withBank i mb s run = run b := by
  simp only [withBank, h]

/-- Code 3 raises E_ILLEGAL (30_encoding.md R80). -/
theorem withBank_none {mb : BankCode} (h : bankOf mb = none) (i : Instr) (s : State)
    (run : Bank → Host.Outcome State Fault Refusal) :
    withBank i mb s run = .next (errorEntry .illegal (encode i) s) := by
  simp only [withBank, h, complete_some]

/-! ## The checks -/

@[simp] theorem checkDim_eq_none (s : State) : checkDim s = none ↔ s.dim ≠ 0 := by
  unfold checkDim; split <;> simp_all

@[simp] theorem checkIndex_eq_none (s : State) (sa : SReg) : checkIndex s sa = none ↔ readIndex s sa < s.dim := by
  unfold checkIndex; split <;> simp_all

@[simp] theorem checkLen_eq_none (s : State) : checkLen s = none ↔ s.ccnt ≠ maxDig s.dim := by
  unfold checkLen; split <;> simp_all

@[simp] theorem checkHex_eq_none (ch : BitVec 8) : checkHex ch = none ↔ ∃ d, hexVal ch = some d := by
  unfold checkHex; cases hexVal ch <;> simp

@[simp] theorem checkDimRange_eq_none (s : State) (imm : BitVec 16) :
    checkDimRange s imm = none ↔ imm.toNat ≠ 0 ∧ imm.toNat ≤ s.nmax := by
  unfold checkDimRange; split <;> [simp_all; (split <;> simp_all)]

theorem checkDim_of_zero {s : State} (h : s.dim = 0) : checkDim s = some .noDim := by
  rw [checkDim, if_pos h]

theorem checkIndex_of_le {s : State} {sa : SReg} (h : s.dim ≤ readIndex s sa) : checkIndex s sa = some .idx := by
  rw [checkIndex, if_pos h]

theorem checkLen_of_eq {s : State} (h : s.ccnt = maxDig s.dim) : checkLen s = some .len := by
  rw [checkLen, if_pos h]

theorem checkHex_of_none {ch : BitVec 8} (h : hexVal ch = none) : checkHex ch = some .hex := by
  rw [checkHex, h]; rfl

/-- The digits of R123 and their values. -/
theorem hexVal_eq_some {ch : BitVec 8} {d : Nat} : hexVal ch = some d ↔ IsDigit ch d := by
  unfold hexVal IsDigit
  split <;> [skip; split] <;> simp <;> omega

theorem hexVal_eq_none {ch : BitVec 8} : hexVal ch = none ↔ ∀ d, ¬ IsDigit ch d := by
  simp only [← hexVal_eq_some]
  cases hexVal ch <;> simp

@[simp] theorem bankOf_codeOf (b : Bank) : bankOf (codeOf b) = some b := by
  cases b <;> rfl

/-! ## The commands with a bank operand, by bank -/

theorem exec_mwr (b : Bank) (sa : SReg) (va : VReg) (s : State) :
    exec (.mwr (codeOf b) sa va) s = complete (.mwr (codeOf b) sa va) ((checkDim s).or (checkIndex s sa)) s
      (matWrite s b (readIndex s sa) (readV s va)) :=
  withBank_some (bankOf_codeOf b) _ _ _

theorem exec_mrd (vd : VReg) (b : Bank) (sa : SReg) (s : State) :
    exec (.mrd vd (codeOf b) sa) s = complete (.mrd vd (codeOf b) sa) ((checkDim s).or (checkIndex s sa)) s
      (writeV s vd (matRead s.mem b (readIndex s sa))) :=
  withBank_some (bankOf_codeOf b) _ _ _

theorem exec_mvc (vd : VReg) (b : Bank) (va : VReg) (s : State) :
    exec (.mvc vd (codeOf b) va) s = complete (.mvc vd (codeOf b) va) (checkDim s) s
      (writeV s vd (matVec s.mem b s.dim (readV s va))) :=
  withBank_some (bankOf_codeOf b) _ _ _

theorem exec_vmr (vd va : VReg) (b : Bank) (s : State) :
    exec (.vmr vd va (codeOf b)) s = complete (.vmr vd va (codeOf b)) (checkDim s) s
      (writeV s vd (vecMat s.mem b s.dim (readV s va))) :=
  withBank_some (bankOf_codeOf b) _ _ _

/-! ## The other commands -/

theorem exec_nop (s : State) : exec .nop s = .next s := rfl

theorem exec_srst (s : State) : exec .srst s = .next (resetBlock s) := rfl

theorem exec_setdim (imm : BitVec 16) (s : State) :
    exec (.setdim imm) s = complete (.setdim imm) (checkDimRange s imm) s (clearCase { s with dim := imm.toNat }) := rfl

theorem exec_sets (sd : SReg) (imm : BitVec 16) (s : State) :
    exec (.sets sd imm) s = .next (writeS s sd (zext32 imm.toNat)) := rfl

theorem exec_crst (s : State) : exec .crst s = .next (clearCodec s) := rfl

theorem exec_chex (ch : BitVec 8) (s : State) :
    exec (.chex ch) s = complete (.chex ch) (((checkDim s).or (checkHex ch)).or (checkLen s)) s
      { s with cacc := appendDigit s.nmax s.cacc ((hexVal ch).getD 0), ccnt := s.ccnt + 1 } := rfl

theorem exec_cdec (vd : VReg) (s : State) :
    exec (.cdec vd) s = complete (.cdec vd) (checkDim s) s
      (clearCodec (writeV s vd (decodeDigits s.dim s.cacc))) := rfl

theorem exec_vand (vd va vb : VReg) (s : State) :
    exec (.vand vd va vb) s = complete (.vand vd va vb) (checkDim s) s
      (writeV s vd (readV s va &&& readV s vb)) := rfl

theorem exec_vxor (vd va vb : VReg) (s : State) :
    exec (.vxor vd va vb) s = complete (.vxor vd va vb) (checkDim s) s
      (writeV s vd (readV s va ^^^ readV s vb)) := rfl

theorem exec_vpop (sd : SReg) (va : VReg) (s : State) :
    exec (.vpop sd va) s = complete (.vpop sd va) (checkDim s) s
      (writeCountFlags (writeS s sd (zext32 (popcount s.dim (readV s va)))) (popcount s.dim (readV s va))) := rfl

theorem exec_vbit (sd : SReg) (va : VReg) (sa : SReg) (s : State) :
    exec (.vbit sd va sa) s = complete (.vbit sd va sa) ((checkDim s).or (checkIndex s sa)) s
      (writeS s sd (zext32 ((readV s va).testBit (readIndex s sa)).toNat)) := rfl

theorem exec_vdiff (sd : SReg) (va vb : VReg) (s : State) :
    exec (.vdiff sd va vb) s = complete (.vdiff sd va vb) (checkDim s) s
      (writeZ (writeS s sd (diffIndex s.dim (lowestSet s.dim (readV s va ^^^ readV s vb))))
        (lowestSet s.dim (readV s va ^^^ readV s vb)).isNone) := rfl

/-! ## What a command can do -/

/-- The state a command leaves when it raises no error, its bank operand being bank `b` (for the commands that have
one). -/
def effectOf (i : Instr) (b : Bank) (s : State) : State :=
  match i with
  | .nop => s
  | .srst => resetBlock s
  | .setdim imm => clearCase { s with dim := imm.toNat }
  | .sets sd imm => writeS s sd (zext32 imm.toNat)
  | .crst => clearCodec s
  | .chex ch => { s with cacc := appendDigit s.nmax s.cacc ((hexVal ch).getD 0), ccnt := s.ccnt + 1 }
  | .cdec vd => clearCodec (writeV s vd (decodeDigits s.dim s.cacc))
  | .mwr _ sa va => matWrite s b (readIndex s sa) (readV s va)
  | .mrd vd _ sa => writeV s vd (matRead s.mem b (readIndex s sa))
  | .mvc vd _ va => writeV s vd (matVec s.mem b s.dim (readV s va))
  | .vmr vd va _ => writeV s vd (vecMat s.mem b s.dim (readV s va))
  | .vand vd va vb => writeV s vd (readV s va &&& readV s vb)
  | .vxor vd va vb => writeV s vd (readV s va ^^^ readV s vb)
  | .vpop sd va =>
    writeCountFlags (writeS s sd (zext32 (popcount s.dim (readV s va)))) (popcount s.dim (readV s va))
  | .vbit sd va sa => writeS s sd (zext32 ((readV s va).testBit (readIndex s sa)).toNat)
  | .vdiff sd va vb =>
    writeZ (writeS s sd (diffIndex s.dim (lowestSet s.dim (readV s va ^^^ readV s vb))))
      (lowestSet s.dim (readV s va ^^^ readV s vb)).isNone

/-- What the checks of a command let through: the state and operands on which it raises no error (R181, R182). -/
def admits (i : Instr) (s : State) : Prop :=
  i.wellFormed = true ∧ (needsDim i = true → s.dim ≠ 0) ∧
  match i with
  | .setdim imm => imm.toNat ≠ 0 ∧ imm.toNat ≤ s.nmax
  | .chex ch => (∃ d, hexVal ch = some d) ∧ s.ccnt ≠ maxDig s.dim
  | .mwr _ sa _ | .mrd _ _ sa | .vbit _ _ sa => readIndex s sa < s.dim
  | .nop | .srst | .sets _ _ | .crst | .cdec _ | .mvc _ _ _ | .vmr _ _ _
  | .vand _ _ _ | .vxor _ _ _ | .vpop _ _ | .vdiff _ _ _ => True

/-- One command, with its checks: it has its effect where they let it through, and takes an error elsewhere. -/
theorem exec_cases {i : Instr} {s t : State} (h : exec i s = .next t) :
    (admits i s ∧ ∃ b, t = effectOf i b s) ∨ (¬ admits i s ∧ ∃ c, t = errorEntry c (encode i) s) := by
  have plain : ∀ (check : Option ErrorCode) (b : Bank), exec i s = complete i check s (effectOf i b s) →
      (check = none ↔ admits i s) →
      (admits i s ∧ ∃ b, t = effectOf i b s) ∨ (¬ admits i s ∧ ∃ c, t = errorEntry c (encode i) s) := by
    intro check b he hc
    rcases complete_cases (he ▸ h) with ⟨hn, ht⟩ | ⟨c, hn, ht⟩
    · exact .inl ⟨hc.mp hn, b, ht⟩
    · exact .inr ⟨fun ha => by simp [hc.mpr ha] at hn, c, ht⟩
  have banked : ∀ (mb : BankCode) (check : Option ErrorCode),
      exec i s = withBank i mb s (fun b => complete i check s (effectOf i b s)) →
      (namesBank mb = true ∧ check = none ↔ admits i s) →
      (admits i s ∧ ∃ b, t = effectOf i b s) ∨ (¬ admits i s ∧ ∃ c, t = errorEntry c (encode i) s) := by
    intro mb check he hc
    have hb := bankOf_isSome mb
    cases ho : bankOf mb with
    | none =>
      rw [he, withBank_none ho] at h
      refine .inr ⟨fun ha => ?_, .illegal, by simpa using h.symm⟩
      simp [ho, (hc.mpr ha).1] at hb
    | some b =>
      rw [withBank_some ho] at he
      refine plain check b he ⟨fun hn => hc.mp ⟨?_, hn⟩, fun ha => (hc.mpr ha).2⟩
      simpa [ho] using hb.symm
  cases i with
  | nop => exact plain none .bankA rfl (by simp [admits, Instr.wellFormed, needsDim])
  | srst => exact plain none .bankA rfl (by simp [admits, Instr.wellFormed, needsDim])
  | setdim imm =>
    exact plain (checkDimRange s imm) .bankA rfl (by simp [admits, Instr.wellFormed, needsDim])
  | sets sd imm => exact plain none .bankA rfl (by simp [admits, Instr.wellFormed, needsDim])
  | crst => exact plain none .bankA rfl (by simp [admits, Instr.wellFormed, needsDim])
  | chex ch =>
    exact plain (((checkDim s).or (checkHex ch)).or (checkLen s)) .bankA rfl
      (by simp [admits, Instr.wellFormed, needsDim, and_assoc])
  | cdec vd => exact plain (checkDim s) .bankA rfl (by simp [admits, Instr.wellFormed, needsDim])
  | mwr mb sa va =>
    exact banked mb ((checkDim s).or (checkIndex s sa)) rfl (by simp [admits, Instr.wellFormed, needsDim])
  | mrd vd mb sa =>
    exact banked mb ((checkDim s).or (checkIndex s sa)) rfl (by simp [admits, Instr.wellFormed, needsDim])
  | mvc vd mb va => exact banked mb (checkDim s) rfl (by simp [admits, Instr.wellFormed, needsDim])
  | vmr vd va mb => exact banked mb (checkDim s) rfl (by simp [admits, Instr.wellFormed, needsDim])
  | vand vd va vb => exact plain (checkDim s) .bankA rfl (by simp [admits, Instr.wellFormed, needsDim])
  | vxor vd va vb => exact plain (checkDim s) .bankA rfl (by simp [admits, Instr.wellFormed, needsDim])
  | vpop sd va => exact plain (checkDim s) .bankA rfl (by simp [admits, Instr.wellFormed, needsDim])
  | vbit sd va sa =>
    exact plain ((checkDim s).or (checkIndex s sa)) .bankA rfl (by simp [admits, Instr.wellFormed, needsDim])
  | vdiff sd va vb => exact plain (checkDim s) .bankA rfl (by simp [admits, Instr.wellFormed, needsDim])

/-- Every command answers a next state (70_reset_and_hazards.md R220). -/
theorem exec_isNext (i : Instr) (s : State) : ∃ t, exec i s = .next t := by
  cases i <;>
    simp only [exec, execNop, execSrst, execSetdim, execSets, execCrst, execChex, execCdec, execMwr, execMrd,
      execMvc, execVmr, execVand, execVxor, execVpop, execVbit, execVdiff, withBank] <;>
    first
    | exact ⟨_, rfl⟩
    | (split <;> exact ⟨_, rfl⟩)

/-! ## What a step can do -/

/-- A submitted word is what the step handles. -/
theorem step_submit {s : State} {w : Word} {rest : List HostInput} (h : s.input = .submit w :: rest) :
    step s = commandStep w { s with input := rest } := by
  unfold step handleNext; rw [h]; rfl

/-- A running block handles a command word by the command's rule and counts it (60_exceptions.md R183). -/
theorem runningStep_of_decode {w : Word} {i : Instr} (hd : decode w = .ok i) (hi : i ≠ .srst) (s : State) :
    runningStep w s = thenCount (exec i s) := by
  unfold runningStep; rw [hd]; cases i <;> first | rfl | exact absurd rfl hi

/-- One word handled: dropped, reset, refused by the decoder, or run (60_exceptions.md R183). -/
theorem commandStep_cases {w : Word} {s t : State} (h : commandStep w s = .next t) :
    (s.err = true ∧ w ≠ srstWord ∧ t = countWord s) ∨
    (s.err = true ∧ w = srstWord ∧ t = resetBlock s) ∨
    (s.err = false ∧ (∃ r, decode w = .error r) ∧ t = countWord (errorEntry .illegal w s)) ∨
    (s.err = false ∧ decode w = .ok .srst ∧ t = resetBlock s) ∨
    (s.err = false ∧ ∃ i u, decode w = .ok i ∧ i ≠ .srst ∧ exec i s = .next u ∧ t = countWord u) := by
  unfold commandStep at h
  cases he : s.err with
  | true =>
    simp only [he, if_true, haltedStep] at h
    split at h
    · exact .inr (.inl ⟨rfl, ‹_›, by simpa [exec, execSrst] using h.symm⟩)
    · exact .inl ⟨rfl, ‹_›, by simpa using h.symm⟩
  | false =>
    simp only [he, Bool.false_eq_true, if_false, runningStep] at h
    split at h
    · exact .inr (.inr (.inl ⟨rfl, ⟨_, ‹_›⟩, by simpa [thenCount] using h.symm⟩))
    · exact .inr (.inr (.inr (.inl ⟨rfl, ‹_›, by simpa [exec, execSrst] using h.symm⟩)))
    · rename_i i hne hd
      obtain ⟨u, hu⟩ := exec_isNext i s
      exact .inr (.inr (.inr (.inr ⟨rfl, i, u, hd, hne, hu, by simpa [hu, thenCount] using h.symm⟩)))

theorem commandStep_isNext (w : Word) (s : State) : ∃ t, commandStep w s = .next t := by
  unfold commandStep
  split
  · unfold haltedStep
    split
    · exact exec_isNext _ _
    · exact ⟨_, rfl⟩
  · unfold runningStep
    split
    · exact ⟨_, rfl⟩
    · exact exec_isNext _ _
    · rename_i i _ _
      obtain ⟨u, hu⟩ := exec_isNext i s
      exact ⟨countWord u, by rw [hu]; rfl⟩

/-- One step: idle, one word handled, or the reset input handled. -/
theorem step_cases {s t : State} (h : step s = .next t) :
    (s.input = [] ∧ t = s) ∨
    (∃ w rest, s.input = .submit w :: rest ∧ commandStep w { s with input := rest } = .next t) ∨
    (∃ rest, s.input = .reset :: rest ∧ t = resetBlock { s with input := rest }) := by
  unfold step handleNext at h
  split at h
  · exact .inl ⟨‹_›, by simpa using h.symm⟩
  · rename_i e rest hi
    cases e with
    | submit w => exact .inr (.inl ⟨w, rest, hi, h⟩)
    | reset => exact .inr (.inr ⟨rest, hi, by simpa [handleInput] using h.symm⟩)

end Sys2Proof.Machine
end

