-- ==== Sys2Proof/Laws/Frames.lean ====
section
/-!
SUPPORT. The frames of the register, codec, flag and row writes, and the counting form of GF(2) sums: what the results
of the commands are stated with.
-/

namespace Sys2Proof.Machine

theorem onlyVectorChanges_writeV (s : State) (vd : VReg) (x : Nat) : OnlyVectorChanges vd s (writeV s vd x) :=
  ⟨fun _ hi => readV_writeV_ne s x hi, ⟨rfl, rfl, rfl, rfl⟩, fun _ => rfl, fun _ _ => rfl, ⟨rfl, rfl⟩, ⟨rfl, rfl⟩,
    rfl, rfl, rfl, rfl⟩

theorem onlyScalarAndFlagsChange_writeS (s : State) (sd : SReg) (x : Word) :
    OnlyScalarAndFlagsChange sd s (writeS s sd x) :=
  ⟨fun _ hi => readS_writeS_ne s x hi, ⟨rfl, rfl, rfl, rfl⟩, fun _ => rfl, fun _ _ => rfl, ⟨rfl, rfl⟩,
    rfl, rfl, rfl, rfl⟩

theorem onlyScalarAndFlagsChange_writeCountFlags (s : State) (sd : SReg) (x : Word) (count : Nat) :
    OnlyScalarAndFlagsChange sd s (writeCountFlags (writeS s sd x) count) :=
  onlyScalarAndFlagsChange_writeS s sd x

theorem onlyScalarAndFlagsChange_writeZ (s : State) (sd : SReg) (x : Word) (zero : Bool) :
    OnlyScalarAndFlagsChange sd s (writeZ (writeS s sd x) zero) :=
  onlyScalarAndFlagsChange_writeS s sd x

theorem onlyCodecChanges (s : State) (acc cnt : Nat) :
    OnlyCodecChanges s { s with cacc := acc, ccnt := cnt } :=
  ⟨⟨rfl, rfl, rfl, rfl⟩, fun _ => rfl, fun _ => rfl, fun _ _ => rfl, ⟨rfl, rfl⟩, rfl, rfl, rfl, rfl⟩

theorem onlyRowChanges_matWrite (s : State) (b : Bank) (r : Nat) (x : Nat) :
    OnlyRowChanges b r s (matWrite s b r x) :=
  ⟨fun _ _ h => matRead_storeRow_ne s.mem _ h, ⟨rfl, rfl, rfl, rfl⟩, fun _ => rfl, fun _ => rfl, ⟨rfl, rfl⟩,
    ⟨rfl, rfl⟩, rfl, rfl, rfl, rfl⟩

/-- A GF(2) sum is the parity of the number of its terms that are 1 (00_scope.md R10, R11). -/
theorem xorSum_eq_countBelow (f : Nat → Bool) (n : Nat) : xorSum f n = (countBelow n f % 2 == 1) := by
  unfold countBelow
  induction n with
  | zero => rfl
  | succ n ih =>
    rw [xorSum, ih, List.range_succ, List.filter_append, List.length_append]
    have h := Nat.mod_two_eq_zero_or_one ((List.range n).filter f).length
    cases hf : f n <;> rcases h with h | h <;> simp [h, hf, Nat.add_mod]

/-- The first term of a GF(2) sum taken out. -/
theorem xorSum_succ_left (f : Nat → Bool) (n : Nat) :
    xorSum f (n + 1) = (f 0 ^^ xorSum (fun i => f (i + 1)) n) := by
  induction n with
  | zero => simp [xorSum]
  | succ n ih => rw [xorSum, ih, xorSum]; simp

/-- A GF(2) sum taken from the last term to the first (the map of 00_scope.md R8). -/
theorem xorSum_revIndex (f : Nat → Bool) (n : Nat) : xorSum (fun i => f (revIndex n i)) n = xorSum f n := by
  induction n generalizing f with
  | zero => rfl
  | succ n ih =>
    rw [xorSum_succ_left f n, ← ih fun i => f (i + 1), xorSum,
      xorSum_congr (g := fun i => f (revIndex n i + 1)) fun i hi => by congr 1; unfold revIndex; omega]
    simp only [revIndex, show n + 1 - n - 1 = 0 by omega]
    exact Bool.xor_comm _ _

end Sys2Proof.Machine
end

