-- ==== Sys2Proof/Laws/PerInstr.lean ====
section
/-!
SUPPORT. For every command, as syntax: the decoder reads its encoding back, and refuses the encoding of a term that is
not well-formed (30_encoding.md R77, R80, R83).
-/

namespace Sys2Proof.Laws.Encoding

/-- The decoder on the encoding of a term: the term itself where it is well-formed, a reserved bank code elsewhere. -/
def Statement (i : Instr) : Prop :=
  decode (encode i) = if i.wellFormed then .ok i else .error .reservedBank

/-- A word that passes its row's mask is accepted exactly when its term is well-formed. -/
theorem accept_of_masked {w matchWord mask : Word} (i : Instr) (h : w &&& mask = matchWord) :
    accept w matchWord mask i = if i.wellFormed then .ok i else .error .reservedBank := by
  rw [accept, if_pos h]

theorem nop : Statement .nop := by
  unfold Statement
  decide

theorem srst : Statement .srst := by
  unfold Statement
  decide

theorem setdim (imm : BitVec 16) : Statement (.setdim imm) := by
  have hm : encode (.setdim imm) &&& 0xFFFF0000 = 0x08000000 := by
    apply BitVec.eq_of_getLsbD_eq
    intro j hj
    simp only [encode, formatI, BitVec.getLsbD_and, BitVec.getLsbD_append]
    interval_cases j <;> simp
  simpa [Statement, decode, encode] using accept_of_masked (.setdim imm) hm

theorem sets (sd : SReg) (imm : BitVec 16) : Statement (.sets sd imm) := by
  have hm : encode (.sets sd imm) &&& 0xFFFC0000 = 0x0C000000 := by
    apply BitVec.eq_of_getLsbD_eq
    intro j hj
    simp only [encode, formatI, BitVec.getLsbD_and, BitVec.getLsbD_append]
    interval_cases j <;> simp
  simpa [Statement, decode, encode] using accept_of_masked (.sets sd imm) hm

theorem crst : Statement .crst := by
  unfold Statement
  decide

theorem chex (ch : BitVec 8) : Statement (.chex ch) := by
  have hm : encode (.chex ch) &&& 0xFFFFFF00 = 0x14000000 := by
    apply BitVec.eq_of_getLsbD_eq
    intro j hj
    simp only [encode, formatC, BitVec.getLsbD_and, BitVec.getLsbD_append]
    interval_cases j <;> simp
  simpa [Statement, decode, encode] using accept_of_masked (.chex ch) hm

theorem cdec (vd : VReg) : Statement (.cdec vd) := by
  have hm : encode (.cdec vd) &&& 0xFC7FFFFF = 0x18000000 := by
    apply BitVec.eq_of_getLsbD_eq
    intro j hj
    simp only [encode, formatV, BitVec.getLsbD_and, BitVec.getLsbD_append]
    interval_cases j <;> simp
  simpa [Statement, decode, encode] using accept_of_masked (.cdec vd) hm

theorem mwr (mb : BankCode) (sa : SReg) (va : VReg) : Statement (.mwr mb sa va) := by
  have hm : encode (.mwr mb sa va) &&& 0xFF8E67FF = 0x20000000 := by
    apply BitVec.eq_of_getLsbD_eq
    intro j hj
    simp only [encode, formatV, BitVec.getLsbD_and, BitVec.getLsbD_append]
    interval_cases j <;> simp
  simpa [Statement, decode, encode] using accept_of_masked (.mwr mb sa va) hm

theorem mrd (vd : VReg) (mb : BankCode) (sa : SReg) : Statement (.mrd vd mb sa) := by
  have hm : encode (.mrd vd mb sa) &&& 0xFC7E67FF = 0x24000000 := by
    apply BitVec.eq_of_getLsbD_eq
    intro j hj
    simp only [encode, formatV, BitVec.getLsbD_and, BitVec.getLsbD_append]
    interval_cases j <;> simp
  simpa [Statement, decode, encode] using accept_of_masked (.mrd vd mb sa) hm

theorem mvc (vd : VReg) (mb : BankCode) (va : VReg) : Statement (.mvc vd mb va) := by
  have hm : encode (.mvc vd mb va) &&& 0xFC0E7FFF = 0x28000000 := by
    apply BitVec.eq_of_getLsbD_eq
    intro j hj
    simp only [encode, formatV, BitVec.getLsbD_and, BitVec.getLsbD_append]
    interval_cases j <;> simp
  simpa [Statement, decode, encode] using accept_of_masked (.mvc vd mb va) hm

theorem vmr (vd : VReg) (va : VReg) (mb : BankCode) : Statement (.vmr vd va mb) := by
  have hm : encode (.vmr vd va mb) &&& 0xFC0E7FFF = 0x2C000000 := by
    apply BitVec.eq_of_getLsbD_eq
    intro j hj
    simp only [encode, formatV, BitVec.getLsbD_and, BitVec.getLsbD_append]
    interval_cases j <;> simp
  simpa [Statement, decode, encode] using accept_of_masked (.vmr vd va mb) hm

theorem vand (vd : VReg) (va : VReg) (vb : VReg) : Statement (.vand vd va vb) := by
  have hm : encode (.vand vd va vb) &&& 0xFC01FFFF = 0x40000000 := by
    apply BitVec.eq_of_getLsbD_eq
    intro j hj
    simp only [encode, formatV, BitVec.getLsbD_and, BitVec.getLsbD_append]
    interval_cases j <;> simp
  simpa [Statement, decode, encode] using accept_of_masked (.vand vd va vb) hm

theorem vxor (vd : VReg) (va : VReg) (vb : VReg) : Statement (.vxor vd va vb) := by
  have hm : encode (.vxor vd va vb) &&& 0xFC01FFFF = 0x44000000 := by
    apply BitVec.eq_of_getLsbD_eq
    intro j hj
    simp only [encode, formatV, BitVec.getLsbD_and, BitVec.getLsbD_append]
    interval_cases j <;> simp
  simpa [Statement, decode, encode] using accept_of_masked (.vxor vd va vb) hm

theorem vpop (sd : SReg) (va : VReg) : Statement (.vpop sd va) := by
  have hm : encode (.vpop sd va) &&& 0xFF8F9FFF = 0x48000000 := by
    apply BitVec.eq_of_getLsbD_eq
    intro j hj
    simp only [encode, formatV, BitVec.getLsbD_and, BitVec.getLsbD_append]
    interval_cases j <;> simp
  simpa [Statement, decode, encode] using accept_of_masked (.vpop sd va) hm

theorem vbit (sd : SReg) (va : VReg) (sa : SReg) : Statement (.vbit sd va sa) := by
  have hm : encode (.vbit sd va sa) &&& 0xFF8F87FF = 0x4C000000 := by
    apply BitVec.eq_of_getLsbD_eq
    intro j hj
    simp only [encode, formatV, BitVec.getLsbD_and, BitVec.getLsbD_append]
    interval_cases j <;> simp
  simpa [Statement, decode, encode] using accept_of_masked (.vbit sd va sa) hm

theorem vdiff (sd : SReg) (va : VReg) (vb : VReg) : Statement (.vdiff sd va vb) := by
  have hm : encode (.vdiff sd va vb) &&& 0xFF819FFF = 0x50000000 := by
    apply BitVec.eq_of_getLsbD_eq
    intro j hj
    simp only [encode, formatV, BitVec.getLsbD_and, BitVec.getLsbD_append]
    interval_cases j <;> simp
  simpa [Statement, decode, encode] using accept_of_masked (.vdiff sd va vb) hm

end Sys2Proof.Laws.Encoding
end

