-- ==== Sys2Proof/Tests/Slice0.lean ====
section
/-!
SUPPORT. Tests of the model against expected results the spec gives (95_test_vectors.md and the examples of the command
rules), the WellFormed smoke test, and for every statement with hypotheses a state and operands that meet them.
-/

namespace Sys2Proof.Tests

open Sys2Proof Sys2Proof.Machine

/-! ## Helpers -/

/-- The state an outcome gives, if it is a next state. -/
def after : Host.Outcome State Fault Refusal → Option State
  | .next t => some t
  | .fault _ => none
  | .refused _ => none

/-- A vector register after. -/
def vAfter (o : Host.Outcome State Fault Refusal) (i : VReg) : Option Nat := (after o).map (readV · i)

/-- A scalar register after. -/
def sAfter (o : Host.Outcome State Fault Refusal) (i : SReg) : Option Word := (after o).map (readS · i)

/-- STATUS after. -/
def statusAfter (o : Host.Outcome State Fault Refusal) : Option Word := (after o).map statusWord

/-- A block with NMAX = 8 and a dimension, everything else as after reset. -/
def sized (n : Nat) : State := { State.resetFor 8 with dim := n }

/-- A block holding the matrix of 95_test_vectors.md 2.3 in bank A (row-strings C, 6, E), the identity in bank B, and
given vectors in V0 and V1. -/
def loaded (x0 x1 : Nat) : State :=
  { sized 3 with
    v := #v[x0, x1, 0, 0, 0, 0, 0, 0]
    sreg := #v[0, 2, 3, 0xFFFFFFFF]
    mem := { rowsA := [(0, 6), (1, 3), (2, 7)], rowsB := [(0, 4), (1, 2), (2, 1)], rowsC := [] } }

/-- The block `s` with inputs waiting. -/
def fed (s : State) (l : List HostInput) : State := { s with input := l }

/-- A halted block: E_IDX taken (95_test_vectors.md 2.1, STATUS = 0x00000061). -/
def halted : State :=
  { loaded 0b111 0 with err := true, ecode := some .idx, eword := 0x20000800, ecnt := 2, cmdcnt := 3 }

/-! ## WellFormed -/

theorem test_bank_code_3_is_ill_formed :
    [Instr.mwr 3 0 0, .mrd 0 3 0, .mvc 0 3 0, .vmr 0 0 3].all (fun i => !i.wellFormed) = true := by decide

theorem test_bank_codes_are_well_formed :
    [0, 1, 2].all (fun mb => (Instr.mwr mb 0 0).wellFormed && (Instr.mrd 0 mb 0).wellFormed &&
      (Instr.mvc 0 mb 0).wellFormed && (Instr.vmr 0 0 mb).wellFormed) = true := by decide

/-! ## Decoding: words written bit by bit from the formats of 30_encoding.md R71 to R74 -/

-- format N: opcode, 25:0 zero
theorem test_decode_format_n :
    decode 0b000000_00000000000000000000000000 = .ok .nop ∧
    decode 0b000001_00000000000000000000000000 = .ok .srst ∧
    decode 0b000100_00000000000000000000000000 = .ok .crst := by decide

-- format I: opcode, 25:18 zero, sd, imm16
theorem test_decode_format_i :
    decode 0b000010_00000000_00_1000000000000001 = .ok (.setdim 0x8001) ∧
    decode 0b000011_00000000_10_1111000000000011 = .ok (.sets 2 0xF003) := by decide

-- format C: opcode, 25:8 zero, ch
theorem test_decode_format_c :
    decode 0b000101_000000000000000000_11000011 = .ok (.chex 0xC3) := by decide

-- format V: opcode, vd, va, vb, mb, sd, sa, 10:0 zero
theorem test_decode_cdec_and_rows :
    decode 0b000110_101_000_000_00_00_00_00000000000 = .ok (.cdec 5) ∧
    decode 0b001000_000_110_000_10_00_01_00000000000 = .ok (.mwr 2 1 6) ∧
    decode 0b001001_011_000_000_01_00_10_00000000000 = .ok (.mrd 3 1 2) := by decide

theorem test_decode_products :
    decode 0b001010_100_001_000_10_00_00_00000000000 = .ok (.mvc 4 2 1) ∧
    decode 0b001011_110_011_000_01_00_00_00000000000 = .ok (.vmr 6 3 1) := by decide

theorem test_decode_bitwise :
    decode 0b010000_001_010_100_00_00_00_00000000000 = .ok (.vand 1 2 4) ∧
    decode 0b010001_100_010_001_00_00_00_00000000000 = .ok (.vxor 4 2 1) := by decide

theorem test_decode_scalar_results :
    decode 0b010010_000_101_000_00_10_00_00000000000 = .ok (.vpop 2 5) ∧
    decode 0b010011_000_110_000_00_01_10_00000000000 = .ok (.vbit 1 6 2) ∧
    decode 0b010100_000_011_110_00_11_00_00000000000 = .ok (.vdiff 3 3 6) := by decide

-- 95_test_vectors.md 2.1 and 2.3: the illegal words, by the reason they are illegal
theorem test_decode_illegal :
    decode 0x00000001 = .error .unusedField ∧ decode 0x08010002 = .error .unusedField ∧
    decode 0x04000001 = .error .unusedField ∧ decode 0x1C000000 = .error .reservedOpcode ∧
    decode 0x28818000 = .error .reservedBank := by decide

-- the opcode table's words through the host's entry
theorem test_decodeTableWord :
    decodeTableWord 32 0x20701800 = some (.mwr 0 3 7) ∧ decodeTableWord 32 0x28818000 = none := by decide

-- 30_encoding.md R84: the examples of `CHEX imm8` and of decimal and hexadecimal numbers
theorem test_spellings :
    "CHEX 67" ∈ spellings (.chex 0x43) ∧ "SETS S3, 0x1" ∈ spellings (.sets 3 1) ∧
    "VMR V5, V4, B" ∈ spellings (.vmr 5 4 1) := by decide

-- 30_encoding.md R85, 95_test_vectors.md 3: `LDROW A, 0, "8"` is 0x0C030000, 0x10000000, 0x14000038, 0x1B800000, 0x20701800
theorem test_ldrow :
    (pseudoLdrow 0 0 [0x38]).map encode = [0x0C030000, 0x10000000, 0x14000038, 0x1B800000, 0x20701800] := by decide

/-! ## Steps -/

-- the first step after reset runs the placed word, whatever NMAX is: 2.1, NOP from reset gives CMDCNT = 1
theorem test_step_from_reset :
    (after (step (State.reset.withFetchWord 32 0x00000000))).map (·.cmdcnt) = some 1 := by decide

-- 2.1: a raw word with opcode 0 and bit 0 set
theorem test_step_illegal :
    (after (step (State.reset.withFetchWord 32 0x00000001))).map (fun t => (statusWord t, t.eword, t.ecnt)) =
      some (0x00000011, 0x00000001, 0) := by decide

-- 2.1: 0x04000001 while halted with CMDCNT = 3 is dropped
theorem test_step_dropped :
    (after (step (fed halted [.submit 0x04000001]))).map (fun t => (statusWord t, t.cmdcnt)) =
      some (0x00000061, 4) := by decide

-- 2.1: SRST while halted by E_IDX
theorem test_srst :
    (after (step (fed halted [.submit 0x04000000]))).map (fun t => (statusWord t, t.cmdcnt, t.dim)) =
      some (0, 0, 0) := by decide

-- 2.1: SETDIM 2 after VPOP S0 gave 3 with P = 1: vectors and rows cleared, S0 and P kept
theorem test_setdim :
    (after (exec (.setdim 2) (writeCountFlags (writeS (loaded 0b111 0) 0 3) 3))).map
      (fun t => (t.dim, readV t 0, t.mem, readS t 0, statusWord t)) =
      some (2, 0, Memory.empty, 3, 0x00000004) := by decide

-- 2.1: SETDIM 9 with NMAX = 8
theorem test_setdim_range :
    (after (exec (.setdim 9) (State.resetFor 8))).map (fun t => (statusWord t, t.dim)) = some (0x00000021, 0) := by
  decide

-- 2.1: SETS S3, 1
theorem test_sets : sAfter (exec (.sets 3 1) (sized 2)) 3 = some 1 := by decide

-- 41_codec.md R121: after one CHEX, CRST gives CCNT = 0
theorem test_crst :
    (after (exec .crst { sized 2 with cacc := 8, ccnt := 1 })).map (fun t => (t.cacc, t.ccnt)) = some (0, 0) := by
  decide

-- 95_test_vectors.md P3: CHEX 'A' after CHEX '9'
theorem test_chex :
    (after (exec (.chex 0x41) { sized 7 with cacc := 9, ccnt := 1 })).map (fun t => (t.cacc, t.ccnt)) =
      some (0x9A, 2) := by decide

-- 2.2: the second digit of an N = 2 row-string
theorem test_chex_len :
    (after (exec (.chex 0x30) { sized 2 with cacc := 8, ccnt := 1, cmdcnt := 2 })).map
      (fun t => (statusWord t, t.eword, t.ecnt, t.ccnt)) = some (0x00000051, 0x14000030, 2, 1) := by decide

-- P3: CDEC of 9A with N = 7
theorem test_cdec : vAfter (exec (.cdec 0) { sized 7 with cacc := 0x9A, ccnt := 2 }) 0 = some 0b1001101 := by decide

-- 2.2: N = 5, row-string 08 is natural column 4
theorem test_cdec_padding : vAfter (exec (.cdec 0) { sized 5 with cacc := 8, ccnt := 2 }) 0 = some 0b00001 := by decide

-- 42_gf2.md R141: DIM = 2, S3 = 1, V7 = 0b01, MWR A[S3], V7
theorem test_mwr :
    (after (exec (.mwr 0 3 7) (writeV (writeS (sized 2) 3 1) 7 1))).map (fun t => matRead t.mem .bankA 1) =
      some 1 := by decide

-- 2.3: SETS S1, 3; MWR A[S1], V0 at N = 3
theorem test_mwr_index :
    (after (exec (.mwr 0 2 0) (loaded 0b101 0))).map (fun t => (statusWord t, t.mem)) =
      some (0x00000061, (loaded 0b101 0).mem) := by decide

-- 2.3: SETS S1, 2; MRD V2, A[S1]
theorem test_mrd : vAfter (exec (.mrd 2 0 1) (loaded 0 0)) 2 = some 0b111 := by decide

-- 2.3: VDIFF's not-found value as a row index
theorem test_mrd_not_found : statusAfter (exec (.mrd 0 2 3) (loaded 0 0)) = some 0x00000061 := by decide

-- 2.3: x = (1,0,1)
theorem test_mvc : vAfter (exec (.mvc 1 0 0) (loaded 0b101 0)) 1 = some 0b110 := by decide

-- 2.3: vd = va
theorem test_mvc_overlap : vAfter (exec (.mvc 1 0 1) (loaded 0 0b101)) 1 = some 0b110 := by decide

-- 2.3: y = (1,0,0) selects row 0
theorem test_vmr : vAfter (exec (.vmr 1 0 0) (loaded 0b100 0)) 1 = some 0b110 := by decide

-- 2.3: row 0 XOR row 2, vd = va
theorem test_vmr_overlap : vAfter (exec (.vmr 1 1 0) (loaded 0 0b101)) 1 = some 0b001 := by decide

-- 2.4: N = 4, 1101 AND 1011
theorem test_vand : vAfter (exec (.vand 2 0 1) (writeV (writeV (sized 4) 0 0b1101) 1 0b1011)) 2 = some 0b1001 := by
  decide

-- 2.4: VAND from reset
theorem test_vand_nodim : statusAfter (exec (.vand 0 1 2) (State.resetFor 8)) = some 0x00000031 := by decide

-- 2.4: N = 2, 01 XOR 11
theorem test_vxor : vAfter (exec (.vxor 4 2 3) (writeV (writeV (sized 2) 2 0b01) 3 0b11)) 4 = some 0b10 := by decide

-- 2.4: VPOP of 111, then of 000
theorem test_vpop :
    (after (exec (.vpop 0 0) (loaded 0b111 0))).map (fun t => (readS t 0, t.z, t.p)) = some (3, false, true) := by
  decide

theorem test_vpop_zero :
    (after (exec (.vpop 0 0) (loaded 0b000 0))).map (fun t => (readS t 0, t.z, t.p)) = some (0, true, false) := by
  decide

-- 2.4: 110 at raw bit 0; sd = sa at raw bit 2
theorem test_vbit : sAfter (exec (.vbit 1 0 0) (loaded 0b110 0)) 1 = some 0 := by decide

theorem test_vbit_overlap : sAfter (exec (.vbit 1 0 1) (loaded 0b110 0)) 1 = some 1 := by decide

-- 2.4: 111 against 000 reports the largest natural index; equal vectors report none
theorem test_vdiff :
    (after (exec (.vdiff 0 0 1) (loaded 0b111 0b000))).map (fun t => (readS t 0, t.z)) = some (2, false) := by decide

theorem test_vdiff_none :
    (after (exec (.vdiff 0 0 1) (loaded 0b111 0b111))).map (fun t => (readS t 0, t.z)) = some (0xFFFFFFFF, true) := by
  decide

-- 2.2: N = 40, the two words of the window
theorem test_vector_window :
    (readRegister (writeV (State.resetFor 64) 0 0x8000000001) 0x1000,
      readRegister (writeV (State.resetFor 64) 0 0x8000000001) 0x1001) = (0x00000001, 0x00000080) := by decide

-- 2.2: the source's algorithm on F with N = 8, with both readings of its padding width (90_conflicts.md C1)
theorem test_source_codec : sourceDecode 8 8 [0xF] = 0b00001111 ∧ sourceDecode 16 8 [0xF] = 0b00001111 := by decide

/-! ## Witnesses: for each statement with hypotheses, operands and a state that meet them -/

theorem witness_BlockInv :
    BlockInv (loaded 0b101 0b111) ∧ BlockInv halted ∧ BlockInv { sized 8 with cacc := 0xFF, ccnt := 2 } := by decide

theorem witness_SrstAndHardwareResetAgree :
    (fed halted [.submit 0x04000000, .reset]).input = .submit 0x04000000 :: [.reset] ∧
    (fed halted [.reset]).input = .reset :: [] := by decide

theorem witness_ResetMeetsInvariant : (1 ≤ 1 ∧ 1 ≤ 4096) ∧ (1 ≤ 4096 ∧ 4096 ≤ 4096) := by decide

theorem witness_EveryStepKeepsInvariant :
    BlockInv (fed (loaded 0b101 0) [.submit 0x20001000]) ∧
    ∃ t, step (fed (loaded 0b101 0) [.submit 0x20001000]) = .next t := ⟨by decide, _, rfl⟩

theorem witness_ReservedOpcodesAreRefused :
    ∀ w ∈ [0x1C000000, 0x30000000, 0x3FFFFFFF, 0x54000000, (0xFFFFFFFF : Word)],
      ReservedOpcode (opcodeField w).toNat ∧ RunsNext w (fed (loaded 0 0) [.submit w]) := by
  intro w hw
  simp only [List.mem_cons, List.not_mem_nil, or_false] at hw
  rcases hw with rfl | rfl | rfl | rfl | rfl <;> decide

/-- For each row of 30_encoding.md R77 a word with its opcode that does not spell it. -/
def misspelt : List Word :=
  [ 0x00000001, 0x04000001, 0x08010002, 0x0C040000, 0x10000001, 0x14000100, 0x18000001, 0x20018000, 0x24000800 + 1,
    0x28818000, 0x2C018000, 0x40000001, 0x44010000, 0x48800000, 0x4C000001, 0x50000800 ]

/-- The hypotheses of `IllegalOtherwise`, for every row: the statement about illegal words and one clause of the
statement about each command. -/
theorem witness_IllegalOtherwise :
    ∀ p ∈ opcodeRows.zip misspelt, opcodeField p.2 = opcodeField p.1.matchWord ∧
      ¬(p.2 &&& p.1.mask = p.1.matchWord ∧ (p.1.usesBank = true → mbField p.2 ≠ 3)) ∧
      RunsNext p.2 (fed (loaded 0 0) [.submit p.2]) := by decide

theorem witness_IllegalOtherwise_bank :
    ∀ w ∈ [0x20018000, 0x24018000, 0x28018000, (0x2C018000 : Word)], ∃ row ∈ opcodeRows,
      opcodeField w = opcodeField row.matchWord ∧ w &&& row.mask = row.matchWord ∧ mbField w = 3 := by
  intro w hw
  simp only [List.mem_cons, List.not_mem_nil, or_false] at hw
  rcases hw with rfl | rfl | rfl | rfl <;> decide

theorem witness_StepRunsTheDecodedCommand :
    (halted.err = true ∧ (0x04000000 : Word) = 0x04000000 ∧ (0x00000000 : Word) ≠ 0x04000000) ∧
    ((loaded 0 0).err = false ∧ decodeInstr 0x00000001 = none) ∧
    decode 0x04000000 = .ok .srst ∧ decode 0x41020000 = .ok (.vand 2 0 1) := by decide

theorem witness_HaltedBlockDropsWords :
    (fed halted [.submit 0xFFFFFFFF]).input = .submit 0xFFFFFFFF :: [] ∧ halted.err = true ∧
      (0xFFFFFFFF : Word) ≠ 0x04000000 ∧ (0x0000 : BitVec 16) ≠ 0x0003 := by decide

theorem witness_OnlyResetLeavesTheHaltedState :
    (fed halted [.submit 0x04000000]).err = true ∧ (∃ t, step (fed halted [.submit 0x04000000]) = .next t) ∧
      (∃ t, step (fed halted [.submit 0]) = .next t) := ⟨by decide, ⟨_, rfl⟩, ⟨_, rfl⟩⟩

theorem witness_IdleBlockKeepsItsState : (loaded 0 0).input = [] := by decide

/-- A word that halts the block: MWR with a row index of DIM. -/
theorem witness_ErrorsArePrecise :
    (loaded 0 0).err = false ∧ ∃ t, step (fed (loaded 0 0) [.submit 0x20001000]) = .next t ∧ t.err = true :=
  ⟨by decide, _, rfl, by decide⟩

theorem witness_CommandsNeedADimension :
    (∀ i ∈ [Instr.chex 0x30, .cdec 0, .mwr 0 0 0, .mrd 0 1 0, .mvc 0 2 0, .vmr 0 0 0, .vand 0 0 0, .vxor 0 0 0,
      .vpop 0 0, .vbit 0 0 0, .vdiff 0 0 0], i.wellFormed = true ∧ needsDim i = true) ∧
    (State.resetFor 8).dim = 0 ∧ (State.resetFor 8).err = false ∧
    1 ≤ (8 : BitVec 16).toNat ∧ (8 : BitVec 16).toNat ≤ (State.resetFor 8).nmax := by decide

/-- Bank code 3 and a bad index at DIM = 0: three causes at once. -/
theorem witness_ErrorsFollowTheirPriority :
    (loaded 0 0).err = false ∧ errorCause .idx (.mwr 0 2 0) (loaded 0 0) ∧
    errorCause .illegal (.mwr 3 2 0) (State.resetFor 8) ∧ errorCause .noDim (.mwr 3 2 0) (State.resetFor 8) ∧
    errorCause .idx (.mwr 3 2 0) (State.resetFor 8) ∧ (∀ code, ¬ errorCause code .nop (loaded 0 0)) :=
  ⟨by decide, ⟨2, rfl, by decide⟩, rfl, ⟨rfl, rfl⟩, ⟨2, rfl, by decide⟩, fun code => by
    cases code <;> simp [errorCause, Instr.wellFormed, needsDim, indexOperand]⟩

theorem witness_EveryWordIsCounted :
    (∃ t, step (fed (loaded 0 0) [.submit 0x04000000]) = .next t) ∧
    ∃ t, step (fed (loaded 0 0) [.submit 0]) = .next t := ⟨⟨_, rfl⟩, ⟨_, rfl⟩⟩

/-- VAND V2, V0, V1 twice. -/
theorem witness_RepeatingACommandChangesNothing :
    BlockInv (fed (loaded 0b101 0b111) [.submit 0x41020000, .submit 0x41020000]) ∧
    decode 0x41020000 = .ok (.vand 2 0 1) ∧ repeatable (.vand 2 0 1) = true ∧
    ∃ t u, step (fed (loaded 0b101 0b111) [.submit 0x41020000, .submit 0x41020000]) = .next t ∧ step t = .next u :=
  ⟨by decide, by decide, by decide, _, _, rfl, rfl⟩

theorem witness_NopHasNoEffect : (fed (sized 2) [.submit 0]).input = .submit 0 :: [] := by decide

theorem witness_SetdimStartsACase :
    (0 : BitVec 16).toNat = 0 ∧ (State.resetFor 8).nmax < (9 : BitVec 16).toNat ∧
    (1 ≤ (1 : BitVec 16).toNat ∧ (1 : BitVec 16).toNat ≤ (State.resetFor 8).nmax) ∧
    (1 ≤ (8 : BitVec 16).toNat ∧ (8 : BitVec 16).toNat ≤ (State.resetFor 8).nmax) := by decide

/-- The first and last codes of each range of digits. -/
theorem witness_IsDigit : IsDigit 0x30 0 ∧ IsDigit 0x39 9 ∧ IsDigit 0x41 10 ∧ IsDigit 0x46 15 := by decide

/-- The codes next to the ranges of digits, and `a`. -/
theorem witness_IsDigit_none : ∀ ch ∈ [(0x2F : BitVec 8), 0x3A, 0x40, 0x47, 0x61], ∀ d, ¬ IsDigit ch d := by
  intro ch hch d
  simp only [List.mem_cons, List.not_mem_nil, or_false] at hch
  rcases hch with rfl | rfl | rfl | rfl | rfl <;> simp [IsDigit]

theorem witness_ChexAppendsADigit :
    (State.resetFor 8).dim = 0 ∧ (sized 1).dim ≠ 0 ∧
    { sized 5 with cacc := 0x10, ccnt := 2 }.ccnt = (5 + 3) / 4 ∧
    BlockInv { sized 5 with cacc := 0xF, ccnt := 1 } ∧ { sized 5 with cacc := 0xF, ccnt := 1 }.ccnt ≠ (5 + 3) / 4 := by
  decide

theorem witness_CdecDecodesTheDigits :
    (State.resetFor 8).dim = 0 ∧ (sized 1).dim ≠ 0 ∧ BlockInv (sized 1) ∧ (sized 1).ccnt = 0 ∧
    (0 < (sized 1).dim ∧ (sized 1).dim ≤ 1) := by decide

theorem witness_RowStringsAreWrittenLeftToRight : 0 < 7 ∧ 6 < 7 := by decide

theorem witness_DigitsAccumulateWithoutLoss :
    (7 ≤ 8 ∧ (∀ d ∈ [9, 15], d < 16) ∧ [9, 15].length ≤ (7 + 3) / 4) ∧ 1 + [9].length ≤ (7 + 3) / 4 := by decide

theorem witness_CodecMatchesTheSourceAlgorithm :
    1 ≤ 1 ∧ 1 ≤ 8 ∧ (∀ d ∈ [15], d < 16) ∧ [15].length ≤ (1 + 3) / 4 ∧ 0 < 8 ∧ 8 % 2 = 0 := by decide

theorem witness_LoadingARowStringDecodesIt :
    BlockInv (loaded 0 0) ∧ (loaded 0 0).err = false ∧ (loaded 0 0).dim ≠ 0 ∧
    List.Forall₂ IsDigit [0x46] [15] ∧ [15].length ≤ ((loaded 0 0).dim + 3) / 4 ∧ 0 < 2 ∧ 2 % 2 = 0 :=
  ⟨by decide, by decide, by decide, .cons (by decide) .nil, by decide, by decide, by decide⟩

/-- The row indices of MWR and MRD, and the bit index of VBIT: S1 = DIM - 1, S2 = DIM; and DIM = 0. -/
theorem witness_indices :
    (State.resetFor 8).dim = 0 ∧ (loaded 0 0).dim ≠ 0 ∧ (loaded 0 0).mem.wf = true ∧
    (readS (loaded 0 0) 1).toNat + 1 = (loaded 0 0).dim ∧ (readS (loaded 0 0) 1).toNat < (loaded 0 0).dim ∧
    (readS (loaded 0 0) 2).toNat = (loaded 0 0).dim ∧ (loaded 0 0).dim ≤ (readS (loaded 0 0) 2).toNat := by decide

/-- The products and the bitwise commands: DIM = 0 and DIM not 0, with raw bits at both ends. -/
theorem witness_dimensions :
    (State.resetFor 8).dim = 0 ∧ (loaded 0 0).dim ≠ 0 ∧ 0 < (loaded 0 0).dim ∧ 2 < (loaded 0 0).dim ∧
    (loaded 0 0).dim ≤ 3 ∧ BlockInv (loaded 0 0) := by decide

theorem witness_VmrOfAUnitVectorIsARow :
    readV (loaded 0 0) 0 = 0 ∧ (0 < (loaded 1 0).dim ∧ readV (loaded 1 0) 0 = 2 ^ 0) ∧
    (2 < (loaded 4 0).dim ∧ readV (loaded 4 0) 0 = 2 ^ 2) := by decide

/-- W2 of 95_test_vectors.md: A and B the identity, C with the entry (0, 1) flipped, probe x = (0, 1). -/
def defective : Memory := { rowsA := [(0, 2), (1, 1)], rowsB := [(0, 2), (1, 1)], rowsC := [(0, 3), (1, 1)] }

theorem witness_LocalizerFindsADifference :
    1 < 2 ∧ (matVec defective .bankA 2 (matVec defective .bankB 2 1)).testBit 1 ≠
      (matVec defective .bankC 2 1).testBit 1 := by decide

/-- W5: A = B = C = identity, N = 2. -/
def exact : Memory := { rowsA := [(0, 2), (1, 1)], rowsB := [(0, 2), (1, 1)], rowsC := [(0, 2), (1, 1)] }

theorem witness_ExactProductsPassEveryProbe :
    ∀ i c, i < 2 → c < 2 → entry exact .bankC 2 i c =
      xorSum (fun k => entry exact .bankA 2 i k && entry exact .bankB 2 k c) 2 := by
  intro i c hi hc
  interval_cases i <;> interval_cases c <;> decide

/-- VPOP and VDIFF: DIM = 0, and the largest DIM. -/
theorem witness_largest_dimension :
    (State.resetFor 4096).dim = 0 ∧ { State.resetFor 4096 with dim := 4096 }.dim ≠ 0 ∧
    { State.resetFor 4096 with dim := 4096 }.dim ≤ 4096 := by decide

/-- VDIFF: no difference; a difference at raw bit 0; one at raw bit DIM - 1 only. -/
theorem witness_VdiffFindsTheFirstDifference :
    (∀ j, j < (loaded 5 5).dim → (readV (loaded 5 5) 0).testBit j = (readV (loaded 5 5) 1).testBit j) ∧
    (0 < (loaded 5 4).dim ∧ (readV (loaded 5 4) 0).testBit 0 ≠ (readV (loaded 5 4) 1).testBit 0) ∧
    (2 < (loaded 5 1).dim ∧ (readV (loaded 5 1) 0).testBit 2 ≠ (readV (loaded 5 1) 1).testBit 2 ∧
      ∀ j, j < 2 → (readV (loaded 5 1) 0).testBit j = (readV (loaded 5 1) 1).testBit j) := by decide

theorem witness_NotFoundIsNoIndex :
    BlockInv (loaded 0 0) ∧ (loaded 0 0).dim ≠ 0 ∧ readS (loaded 0 0) 3 = 0xFFFFFFFF := by decide

/-- SETDIM 2 from DIM = 3. -/
theorem witness_OnlySetdimAndResetWriteDim :
    ∃ t, step (fed (loaded 0 0) [.submit 0x08000002]) = .next t ∧ t.dim ≠ (loaded 0 0).dim := ⟨_, rfl, by decide⟩

/-- MWR A[S0], V0 with V0 = 0b101 over row 0 = 0b110. -/
theorem witness_OnlyMwrSetdimAndResetWriteRows :
    ∃ t, step (fed (loaded 5 0) [.submit 0x20000000]) = .next t ∧
      matRead t.mem .bankA 0 ≠ matRead (loaded 5 0).mem .bankA 0 := ⟨_, rfl, by decide⟩

/-- VPOP S0, V0 of zero sets Z; of one bit it sets P. -/
theorem witness_FlagsHaveTheirWritersOnly :
    (∃ t, step (fed (loaded 0 0) [.submit 0x48000000]) = .next t ∧ t.z ≠ (loaded 0 0).z) ∧
    ∃ t, step (fed (loaded 1 0) [.submit 0x48000000]) = .next t ∧ t.p ≠ (loaded 1 0).p :=
  ⟨⟨_, rfl, by decide⟩, ⟨_, rfl, by decide⟩⟩

theorem witness_NmaxNeverChanges : ∃ t, step (fed (loaded 0 0) [.reset]) = .next t := ⟨_, rfl⟩

theorem witness_VectorWindowShowsRawBits :
    (0 < 256 ∧ 31 < 32) ∧ (255 < 256 ∧ 0 < 32) ∧ BlockInv (loaded 0 0) ∧ (loaded 0 0).dim ≤ 32 * 0 + 3 := by decide

/-- The reserved addresses, at both ends of each range, and the windows' ends. -/
theorem witness_RegistersAreAtTheirAddresses :
    (∀ a ∈ [(0x0007 : BitVec 16), 0x000C, 0x0FFF, 0x1800, 0xFFFF],
      a.toNat = 0x0007 ∨ (0x000B < a.toNat ∧ a.toNat < 0x1000) ∨ 0x1800 ≤ a.toNat) ∧ 0 < 256 ∧ 255 < 256 := by
  refine ⟨?_, by decide, by decide⟩
  intro a ha
  simp only [List.mem_cons, List.not_mem_nil, or_false] at ha
  rcases ha with rfl | rfl | rfl | rfl | rfl <;> simp

theorem witness_HostReadsSeeEarlierCommands :
    (loaded 0 0).input = [] ∧ (fed (loaded 0 0) [.submit 0]).input ≠ [] ∧
    ∃ t, step (fed (loaded 0 0) [.submit 0]) = .next t := ⟨by decide, by decide, _, rfl⟩

theorem witness_EqualRowsAreEqualData :
    (loaded 0 0).mem.wf = true ∧ ∀ (b : Bank) (r : Nat), matRead (loaded 0 0).mem b r = matRead (loaded 0 0).mem b r :=
  ⟨by decide, fun _ _ => rfl⟩

end Sys2Proof.Tests
end

/-!
PROOF. The statements of 10_state.md: the count of submitted words (R29), the host register map (R31, R33, R34), host
reads (R35) and the state after reset (R36).
-/

namespace Sys2Proof.Machine

/-! ## The count of submitted words -/

theorem accept_eq_ok {w matchWord mask : Word} {i j : Instr} :
    accept w matchWord mask i = .ok j ↔ w &&& mask = matchWord ∧ i.wellFormed = true ∧ i = j := by
  unfold accept
  split <;> [split; skip] <;> simp [*]

/-- One word alone spells SRST (30_encoding.md R77): its mask leaves no bit free. -/
theorem decode_eq_srst {w : Word} : decode w = .ok .srst ↔ w = srstWord := by
  constructor
  · intro h
    unfold decode at h
    split at h <;> simp only [accept_eq_ok, reduceCtorEq, and_false] at h
    obtain ⟨hw, -⟩ := h
    calc w = w &&& 0xFFFFFFFF := (BitVec.and_allOnes (x := w)).symm
      _ = srstWord := hw
  · rintro rfl
    decide

/-- No command's effect but SRST's counts or clears CMDCNT: counting is the step's (60_exceptions.md R183). -/
theorem effectOf_cmdcnt {i : Instr} (hi : i ≠ .srst) (b : Bank) (s : State) :
    (effectOf i b s).cmdcnt = s.cmdcnt := by
  cases i with
  | srst => exact absurd rfl hi
  | _ => rfl

theorem exec_cmdcnt {i : Instr} {s t : State} (hi : i ≠ .srst) (h : exec i s = .next t) :
    t.cmdcnt = s.cmdcnt := by
  rcases exec_cases h with ⟨-, b, rfl⟩ | ⟨-, c, rfl⟩
  · exact effectOf_cmdcnt hi b s
  · rfl

theorem commandStep_cmdcnt {w : Word} {s t : State} (h : commandStep w s = .next t) :
    t.cmdcnt = if w = srstWord then 0 else s.cmdcnt + 1 := by
  rcases commandStep_cases h with ⟨-, hw, rfl⟩ | ⟨-, hw, rfl⟩ | ⟨-, ⟨r, hd⟩, rfl⟩ | ⟨-, hd, rfl⟩ |
    ⟨-, i, u, hd, hi, hu, rfl⟩
  · rw [if_neg hw, countWord_cmdcnt]
  · rw [if_pos hw, resetBlock_cmdcnt]
  · have hw : w ≠ srstWord := fun e => by simp [decode_eq_srst.mpr e] at hd
    rw [if_neg hw, countWord_cmdcnt, errorEntry_cmdcnt]
  · rw [if_pos (decode_eq_srst.mp hd), resetBlock_cmdcnt]
  · have hw : w ≠ srstWord := fun e => hi (by simpa [decode_eq_srst.mpr e] using hd.symm)
    rw [if_neg hw, countWord_cmdcnt, exec_cmdcnt hi hu]

/-- Settles O19: every branch of the command step counts the word once, but the two that reset. -/
theorem everyWordIsCounted : Obligations.EveryWordIsCounted := by
  intro s t w rest hin h
  rw [step_submit hin] at h
  exact commandStep_cmdcnt (s := { s with input := rest }) h

/-! ## The host register map -/

/-- Above the named registers, and at the hole 0x0007, an address is a window's or reserved (R31). -/
theorem readRegister_unnamed (s : State) {a : BitVec 16} (ha : a.toNat = 0x0007 ∨ 0x000B < a.toNat) :
    readRegister s a =
      if 0x1000 ≤ a.toNat ∧ a.toNat < 0x1800 then
        vectorWindow s (BitVec.ofNat 3 ((a.toNat - 0x1000) / 0x100)) ((a.toNat - 0x1000) % 0x100)
      else 0 := by
  unfold readRegister
  split
  on_goal 12 => rfl
  all_goals omega

theorem readRegister_reserved (s : State) {a : BitVec 16}
    (ha : a.toNat = 0x0007 ∨ (0x000B < a.toNat ∧ a.toNat < 0x1000) ∨ 0x1800 ≤ a.toNat) :
    readRegister s a = 0 := by
  rw [readRegister_unnamed s (by omega), if_neg (by omega)]

theorem readRegister_window (s : State) (v : VReg) {k : Nat} (hk : k < 256) :
    readRegister s (BitVec.ofNat 16 (0x1000 + 0x100 * v.toNat + k)) = vectorWindow s v k := by
  have hv : v.toNat < 8 := v.isLt
  have ha : (BitVec.ofNat 16 (0x1000 + 0x100 * v.toNat + k)).toNat = 0x1000 + 0x100 * v.toNat + k := by
    rw [BitVec.toNat_ofNat]; omega
  have hreg : (0x1000 + 0x100 * v.toNat + k - 0x1000) / 0x100 = v.toNat := by omega
  have hword : (0x1000 + 0x100 * v.toNat + k - 0x1000) % 0x100 = k := by omega
  rw [readRegister_unnamed s (by omega), if_pos (by omega), ha, hreg, hword, BitVec.ofNat_toNat,
    BitVec.setWidth_eq]

@[simp] theorem vectorWindow_resetFor (n : Nat) (v : VReg) (k : Nat) :
    vectorWindow (State.resetFor n) v k = 0 := by
  simp [vectorWindow, maskBits]

theorem statusWord_resetFor (n : Nat) : statusWord (State.resetFor n) = 0 := by
  rw [statusWord, resetFor_ecode, resetFor_p, resetFor_z, resetFor_err]
  decide

/-- R33, R36: after reset NMAXR alone reads other than 0. -/
theorem readRegister_resetFor (n : Nat) (a : BitVec 16) :
    readRegister (State.resetFor n) a = if a = 0x0006 then BitVec.ofNat 32 n else 0 := by
  by_cases ha : a.toNat = 0x0007 ∨ 0x000B < a.toNat
  · have hne : a ≠ 0x0006 := by rintro rfl; simp at ha
    rw [readRegister_unnamed _ ha, if_neg hne, vectorWindow_resetFor, ite_self]
  · obtain ⟨x, hx, rfl⟩ : ∃ x < 12, a = BitVec.ofNat 16 x := ⟨a.toNat, by omega, by simp⟩
    interval_cases x
    · exact statusWord_resetFor n
    all_goals rfl

/-- Settles O51: the named registers are the rows of R31's table, the rest are windows or reserved. -/
theorem registersAreAtTheirAddresses : Obligations.RegistersAreAtTheirAddresses :=
  ⟨fun _ => ⟨rfl, rfl, rfl, rfl, rfl, rfl, rfl, rfl, rfl, rfl, rfl, rfl⟩,
    fun s v _ hk => readRegister_window s v hk,
    fun s _ ha => readRegister_reserved s ha,
    readRegister_resetFor⟩

/-! ## The vector window -/

theorem getLsbD_vectorWindow (s : State) (v : VReg) (k : Nat) {j : Nat} (hj : j < 32) :
    (vectorWindow s v k).getLsbD j =
      (decide (32 * k + j < s.nmax) && (readV s v).testBit (32 * k + j)) := by
  simp only [vectorWindow, BitVec.getLsbD_ofNat, Nat.testBit_shiftRight, testBit_maskBits, hj, decide_true,
    Bool.true_and]

/-- Settles O52: the window's bits are the register's, which the invariant keeps below DIM (R27). -/
theorem vectorWindowShowsRawBits : Obligations.VectorWindowShowsRawBits := by
  intro s v k j hk hj
  rw [readRegister_window s v hk, getLsbD_vectorWindow s v k hj]
  refine ⟨rfl, ?_⟩
  rintro ⟨-, hvectors, -⟩ hdim
  rw [testBit_of_canonical (hvectors v) hdim, Bool.and_false]

/-! ## Host reads

No input's handling looks at what waits behind it, so a read may take the inputs one step at a time. -/

/-- The state with other inputs waiting. -/
def withInput (l : List HostInput) (s : State) : State := { s with input := l }

@[simp] theorem withInput_input (l : List HostInput) (s : State) : (withInput l s).input = l := rfl

@[simp] theorem withInput_err (l : List HostInput) (s : State) : (withInput l s).err = s.err := rfl

theorem withInput_withInput (l l' : List HostInput) (s : State) :
    withInput l (withInput l' s) = withInput l s := rfl

theorem withInput_self (s : State) : withInput s.input s = s := rfl

section
variable {l : List HostInput} {s t : State}

theorem complete_withInput {i : Instr} {check : Option ErrorCode} {effect : State}
    (h : complete i check s effect = .next t) :
    complete i check (withInput l s) (withInput l effect) = .next (withInput l t) := by
  rcases complete_cases h with ⟨rfl, rfl⟩ | ⟨c, rfl, rfl⟩ <;> rfl

theorem withBank_withInput {i : Instr} {mb : BankCode}
    {run run' : Bank → Host.Outcome State Fault Refusal}
    (hrun : ∀ b, run b = .next t → run' b = .next (withInput l t)) (h : withBank i mb s run = .next t) :
    withBank i mb (withInput l s) run' = .next (withInput l t) := by
  cases hb : bankOf mb with
  | some b =>
    rw [withBank_some hb] at h ⊢
    exact hrun b h
  | none =>
    simp only [withBank, hb] at h ⊢
    exact complete_withInput h

theorem exec_withInput {i : Instr} (h : exec i s = .next t) :
    exec i (withInput l s) = .next (withInput l t) := by
  cases i with
  | mwr | mrd | mvc | vmr => exact withBank_withInput (fun _ => complete_withInput) h
  | setdim | chex | cdec | vand | vxor | vpop | vbit | vdiff => exact complete_withInput h
  | nop | srst | sets | crst =>
    cases h
    rfl

theorem thenCount_withInput {o o' : Host.Outcome State Fault Refusal}
    (ho : ∀ u, o = .next u → o' = .next (withInput l u)) (h : thenCount o = .next t) :
    thenCount o' = .next (withInput l t) := by
  cases o with
  | next u =>
    cases h
    rw [ho u rfl]
    rfl
  | fault r => cases h
  | refused r => cases h

theorem haltedStep_withInput {w : Word} (h : haltedStep w s = .next t) :
    haltedStep w (withInput l s) = .next (withInput l t) := by
  unfold haltedStep at h ⊢
  by_cases hw : w = srstWord
  · rw [if_pos hw] at h ⊢
    exact exec_withInput h
  · rw [if_neg hw] at h ⊢
    cases h
    rfl

theorem runningStep_withInput {w : Word} (h : runningStep w s = .next t) :
    runningStep w (withInput l s) = .next (withInput l t) := by
  unfold runningStep at h ⊢
  split at h
  · cases h
    rfl
  · exact exec_withInput h
  · exact thenCount_withInput (fun _ => exec_withInput) h

theorem commandStep_withInput {w : Word} (h : commandStep w s = .next t) :
    commandStep w (withInput l s) = .next (withInput l t) := by
  unfold commandStep at h ⊢
  rw [withInput_err]
  by_cases he : s.err = true
  · rw [if_pos he] at h ⊢
    exact haltedStep_withInput h
  · rw [if_neg he] at h ⊢
    exact runningStep_withInput h

theorem handleInput_withInput {e : HostInput} (h : handleInput e s = .next t) :
    handleInput e (withInput l s) = .next (withInput l t) := by
  cases e with
  | submit w => exact commandStep_withInput h
  | reset =>
    cases h
    rfl

end

/-- Handling an input leaves what waits behind it. -/
theorem handleInput_input {e : HostInput} {s t : State} (h : handleInput e s = .next t) :
    t.input = s.input := by
  have hs : handleInput e s = .next (withInput s.input t) := handleInput_withInput (l := s.input) h
  rw [h] at hs
  injection hs with ht
  rw [ht, withInput_input]

theorem handleInput_isNext (e : HostInput) (s : State) : ∃ t, handleInput e s = .next t := by
  cases e with
  | submit w => exact commandStep_isNext w s
  | reset => exact ⟨_, rfl⟩

theorem handleAll_cons {e : HostInput} {s t : State} (h : handleInput e s = .next t)
    (rest : List HostInput) : handleAll (e :: rest) s = handleAll rest t := by
  rw [handleAll, h]

theorem handleAll_isNext (l : List HostInput) (s : State) : ∃ t, handleAll l s = .next t := by
  induction l generalizing s with
  | nil => exact ⟨s, rfl⟩
  | cons e rest ih =>
    obtain ⟨u, hu⟩ := handleInput_isNext e s
    rw [handleAll_cons hu]
    exact ih u

theorem step_cons {s : State} {e : HostInput} {rest : List HostInput} (h : s.input = e :: rest) :
    step s = handleInput e (withInput rest s) := by
  unfold step handleNext
  rw [h]
  rfl

/-- With nothing waiting the state has settled. -/
theorem settle_of_empty {s : State} (h : s.input = []) : settle s = .next s := by
  have hs : withInput [] s = s := by rw [← h, withInput_self]
  calc settle s = handleAll s.input (withInput [] s) := rfl
    _ = .next s := by rw [h, handleAll, hs]

/-- Everything that waits is handled by handling the oldest input and then the rest. -/
theorem settle_of_step {s t : State} (hin : s.input ≠ []) (h : step s = .next t) : settle s = settle t := by
  obtain ⟨e, rest, hs⟩ := List.exists_cons_of_ne_nil hin
  rw [step_cons hs] at h
  have ht : t.input = rest := handleInput_input h
  have hempty : handleInput e (withInput [] s) = .next (withInput [] t) := by
    rw [← withInput_withInput [] rest s]
    exact handleInput_withInput h
  calc settle s = handleAll (e :: rest) (withInput [] s) := by rw [← hs]; rfl
    _ = handleAll rest (withInput [] t) := handleAll_cons hempty rest
    _ = settle t := by rw [← ht]; rfl

theorem settle_isNext (s : State) : ∃ t, settle s = .next t := handleAll_isNext _ _

theorem hostRead_of_settle {s t : State} (h : settle s = .next t) (a : BitVec 16) :
    hostRead s a = some (readRegister t a) := by
  rw [hostRead, h]

/-- Settles O53, by `settle_of_step`: settling a state and settling its next state are the same. -/
theorem hostReadsSeeEarlierCommands : Obligations.HostReadsSeeEarlierCommands := by
  refine ⟨fun s a => ?_, fun s a hin => ?_, fun s t a hin h => ?_, fun s a ha => ?_⟩
  · obtain ⟨t, ht⟩ := settle_isNext s
    exact ⟨_, hostRead_of_settle ht a⟩
  · exact hostRead_of_settle (settle_of_empty hin) a
  · rw [hostRead, settle_of_step hin h, hostRead]
  · obtain ⟨t, ht⟩ := settle_isNext s
    rw [hostRead_of_settle ht, readRegister_reserved t ha]

/-! ## Reset -/

/-- Settles O1: each value of R36 is a field of `State.resetFor`, or a read of one. -/
theorem resetLeavesEveryValue : Obligations.ResetLeavesEveryValue := by
  refine ⟨fun n => ⟨rfl, readV_resetFor n, fun b r => ?_, readS_resetFor n, rfl, rfl, rfl, rfl, rfl, rfl,
    rfl, rfl, rfl, rfl⟩, rfl⟩
  rw [resetFor_mem, matRead_empty]

end Sys2Proof.Machine

/-!
PROOF. The statements of 30_encoding.md: which words spell a command (R77, R81), and which are refused (R78 to R80).
-/

namespace Sys2Proof.Machine

/-! ## The rows of the opcode map -/

theorem opcodeField_mask : ∀ row ∈ opcodeRows, opcodeField row.mask = BitVec.allOnes 6 := by decide

/-- A word that passes a row's match and mask has the row's opcode. -/
theorem opcodeField_of_match {row : OpcodeRow} (hrow : row ∈ opcodeRows) {w : Word}
    (h : w &&& row.mask = row.matchWord) : opcodeField w = opcodeField row.matchWord :=
  calc opcodeField w = opcodeField w &&& opcodeField row.mask := by
        rw [opcodeField_mask row hrow, BitVec.and_allOnes]
    _ = opcodeField (w &&& row.mask) := BitVec.extractLsb'_and.symm
    _ = opcodeField row.matchWord := by rw [h]

/-- No two rows share an opcode. -/
theorem row_eq_of_opcodeField {row other : OpcodeRow} (hrow : row ∈ opcodeRows) (hother : other ∈ opcodeRows)
    (h : opcodeField row.matchWord = opcodeField other.matchWord) : row = other := by
  have hnodup : (opcodeRows.map fun r => opcodeField r.matchWord).Nodup := by decide
  exact List.inj_on_of_nodup_map hnodup hrow hother h

/-- No two rows share a mnemonic. -/
theorem row_eq_of_mnemonic {row other : OpcodeRow} (hrow : row ∈ opcodeRows) (hother : other ∈ opcodeRows)
    (h : row.mnemonic = other.mnemonic) : row = other := by
  have hnodup : (opcodeRows.map OpcodeRow.mnemonic).Nodup := by decide
  exact List.inj_on_of_nodup_map hnodup hrow hother h

/-- The opcodes outside the ranges of R79 are those of the rows. -/
theorem exists_row_of_not_reserved :
    ∀ op : BitVec 6, ¬ ReservedOpcode op.toNat → ∃ row ∈ opcodeRows, op = opcodeField row.matchWord := by
  decide

/-! ## The decoder, by row -/

/-- R83: a word with a row's opcode is put to the row's test, as a term with the row's mnemonic that is well-formed
unless it uses bank code 3. -/
theorem decode_eq_accept {row : OpcodeRow} (hrow : row ∈ opcodeRows) {w : Word}
    (hop : opcodeField w = opcodeField row.matchWord) :
    ∃ i, decode w = accept w row.matchWord row.mask i ∧ mnemonic i = row.mnemonic ∧
      (i.wellFormed = true ↔ (row.usesBank = true → mbField w ≠ 3)) := by
  rw [decode, hop]
  simp only [opcodeRows, List.cons_append, List.nil_append, List.mem_cons, List.not_mem_nil, or_false] at hrow
  rcases hrow with rfl | rfl | rfl | rfl | rfl | rfl | rfl | rfl | rfl | rfl | rfl | rfl | rfl | rfl | rfl | rfl <;>
    exact ⟨_, rfl, rfl, by simp [Instr.wellFormed, namesBank]⟩

/-- R79: an opcode in the reserved ranges is that of no arm of the decoder. -/
theorem decode_of_reserved {w : Word} (h : ReservedOpcode (opcodeField w).toNat) :
    decode w = .error .reservedOpcode := by
  unfold decode
  split
  on_goal 17 => rfl
  all_goals omega

theorem accept_ne_reservedOpcode (w matchWord mask : Word) (i : Instr) :
    accept w matchWord mask i ≠ .error .reservedOpcode := by
  unfold accept
  split <;> [split; skip] <;> simp

/-- R79: the decoder calls no other opcode reserved. -/
theorem decode_eq_reservedOpcode {w : Word} :
    decode w = .error .reservedOpcode ↔ ReservedOpcode (opcodeField w).toNat := by
  refine ⟨fun hd => ?_, decode_of_reserved⟩
  by_contra hr
  obtain ⟨row, hrow, hop⟩ := exists_row_of_not_reserved _ hr
  obtain ⟨i, hi, -⟩ := decode_eq_accept hrow hop
  exact accept_ne_reservedOpcode _ _ _ _ (hi ▸ hd)

/-- A command decoded is one of a row that the word passes, and names a bank where the row uses one. -/
theorem exists_row_of_decode {w : Word} {i : Instr} (hd : decode w = .ok i) :
    ∃ row ∈ opcodeRows, mnemonic i = row.mnemonic ∧ w &&& row.mask = row.matchWord ∧
      (row.usesBank = true → mbField w ≠ 3) := by
  have hr : ¬ ReservedOpcode (opcodeField w).toNat := fun hr => by simp [decode_of_reserved hr] at hd
  obtain ⟨row, hrow, hop⟩ := exists_row_of_not_reserved _ hr
  obtain ⟨j, hj, hname, hwf⟩ := decode_eq_accept hrow hop
  obtain ⟨hmatch, hok, rfl⟩ := accept_eq_ok.mp (hj ▸ hd)
  exact ⟨row, hrow, hname, hmatch, hwf.mp hok⟩

/-! ## The words that spell a command -/

/-- Settles O5: a decoded command's row is fixed by its mnemonic, a passing word's row by its opcode. -/
theorem mnemonicsAreSpelledByMatchAndMask : Obligations.MnemonicsAreSpelledByMatchAndMask := by
  intro row hrow w
  constructor
  · rintro ⟨i, hd, hname⟩
    obtain ⟨other, hother, hname', hspelt⟩ := exists_row_of_decode hd
    rwa [row_eq_of_mnemonic hrow hother (hname.symm.trans hname')]
  · rintro ⟨hmatch, hbank⟩
    obtain ⟨i, hi, hname, hwf⟩ := decode_eq_accept hrow (opcodeField_of_match hrow hmatch)
    exact ⟨i, hi.trans (accept_eq_ok.mpr ⟨hmatch, hwf.mpr hbank, rfl⟩), hname⟩

/-- Settles O7: a command's word passes its row, and a word passes only the row of its opcode. -/
theorem everyWordIsOneCommandOrIllegal : Obligations.EveryWordIsOneCommandOrIllegal := by
  refine ⟨fun w => ?_, by decide⟩
  cases hd : decode w with
  | error r => exact .inl ⟨r, rfl⟩
  | ok i =>
    obtain ⟨row, hrow, hname, hmatch, -⟩ := exists_row_of_decode hd
    refine .inr ⟨i, rfl, row, hrow, hname, hmatch, fun other hother hmatch' => ?_⟩
    exact row_eq_of_opcodeField hother hrow
      ((opcodeField_of_match hother hmatch').symm.trans (opcodeField_of_match hrow hmatch))

/-! ## The words that are refused -/

/-- R183, R184: a running block takes E_ILLEGAL on a word that decodes to no command, and only counts it besides. -/
theorem takesIllegal_of_not_ok {w : Word} {s : State} (hd : ∀ i, decode w ≠ .ok i) (h : RunsNext w s) :
    TakesIllegal w s := by
  obtain ⟨herr, hhead⟩ := h
  obtain ⟨rest, hin⟩ := List.head?_eq_some_iff.mp hhead
  have htail : s.input.tail = rest := by rw [hin, List.tail_cons]
  rw [TakesIllegal, htail]
  calc step s = commandStep w { s with input := rest } := step_submit hin
    _ = runningStep w { s with input := rest } := by simp [commandStep, herr]
    _ = .next (countWord (errorEntry .illegal w { s with input := rest })) := by
      cases hw : decode w with
      | ok i => exact absurd hw (hd i)
      | error r => rw [runningStep, hw, thenCount]

/-- Settles O6, by `decode_eq_reservedOpcode`. -/
theorem reservedOpcodesAreRefused : Obligations.ReservedOpcodesAreRefused :=
  ⟨fun _ => decode_eq_reservedOpcode,
    fun _ _ hop => takesIllegal_of_not_ok fun _ => by simp [decode_of_reserved hop]⟩

/-- Settles O11: a word with a row's opcode could only decode to a command of that row, which it does not spell. -/
theorem illegalWordsHaltTheBlock : Obligations.IllegalWordsHaltTheBlock := by
  intro row hrow w s hop hnot
  obtain ⟨i, hi, -, hwf⟩ := decode_eq_accept hrow hop
  refine takesIllegal_of_not_ok fun j hd => ?_
  obtain ⟨hmatch, hok, -⟩ := accept_eq_ok.mp (hi ▸ hd)
  exact hnot ⟨hmatch, hwf.mp hok⟩

end Sys2Proof.Machine

/-!
PROOF. The statements of 40_control.md: NOP (R100), SETDIM (R102) and SETS (R103).
-/

namespace Sys2Proof.Machine

/-- What R77, R78 and R80 say of one row of the opcode map: the words that spell it, and those that do not. -/
theorem spelled_and_illegal_of_row {row : OpcodeRow} (hrow : row ∈ opcodeRows) :
    SpelledBy row.mnemonic row.matchWord row.mask row.usesBank ∧
      IllegalOtherwise row.matchWord row.mask row.usesBank :=
  ⟨mnemonicsAreSpelledByMatchAndMask row hrow, illegalWordsHaltTheBlock row hrow⟩

/-! ## SETDIM -/

theorem checkDimRange_of_outside {s : State} {imm : BitVec 16} (h : imm.toNat = 0 ∨ s.nmax < imm.toNat) :
    checkDimRange s imm = some .dimRange := by
  unfold checkDimRange
  rcases h with h | h
  · rw [if_pos h]
  · rw [if_neg (by omega), if_pos h]

theorem raises_dimRange {s : State} {imm : BitVec 16} (h : imm.toNat = 0 ∨ s.nmax < imm.toNat) :
    Raises (.setdim imm) .dimRange s := by
  rw [Raises, exec_setdim, checkDimRange_of_outside h, complete_some, errorEntry]

theorem exec_setdim_of_inside {s : State} {imm : BitVec 16} (hlow : 1 ≤ imm.toNat) (hhigh : imm.toNat ≤ s.nmax) :
    exec (.setdim imm) s = .next (clearCase { s with dim := imm.toNat }) := by
  have hcheck : checkDimRange s imm = none := (checkDimRange_eq_none s imm).mpr ⟨by omega, hhigh⟩
  rw [exec_setdim, hcheck, complete_none]

theorem matRead_clearCase (s : State) (b : Bank) (r : Nat) : matRead (clearCase s).mem b r = 0 := by
  rw [clearCase_mem, matRead_empty]

/-- Settles O22: the range check is R102's, and `clearCase` gives each part of its effect. -/
theorem setdimStartsACase : Obligations.SetdimStartsACase := by
  obtain ⟨hspelt, hillegal⟩ := spelled_and_illegal_of_row
    (row := ⟨"SETDIM", 0x08000000, 0xFFFF0000, false⟩) (by decide)
  refine ⟨hspelt, hillegal, fun _ _ => raises_dimRange, fun imm s hlow hhigh => ?_⟩
  exact ⟨_, exec_setdim_of_inside hlow hhigh, rfl, readV_clearCase _, matRead_clearCase _, rfl, rfl,
    readS_clearCase _, ⟨rfl, rfl⟩, ⟨rfl, rfl, rfl, rfl⟩, rfl, rfl, rfl⟩

/-! ## NOP -/

/-- R183: a halted block drops NOP's word, a running one runs it; both only count it. -/
theorem commandStep_nop (s : State) : commandStep 0x00000000 s = .next (countWord s) := by
  unfold commandStep
  split
  · rw [haltedStep, if_neg (by decide)]
  · rw [runningStep_of_decode (i := .nop) (by decide) (by decide), exec_nop, thenCount]

/-- Settles O21, by `commandStep_nop`. -/
theorem nopHasNoEffect : Obligations.NopHasNoEffect := by
  obtain ⟨hspelt, hillegal⟩ := spelled_and_illegal_of_row
    (row := ⟨"NOP", 0x00000000, 0xFFFFFFFF, false⟩) (by decide)
  refine ⟨hspelt, hillegal, exec_nop, fun s rest hin => ?_⟩
  rw [step_submit hin, commandStep_nop, countWord]

/-! ## SETS -/

theorem readS_writeS_zext32 (s : State) (sd : SReg) (imm : BitVec 16) :
    readS (writeS s sd (zext32 imm.toNat)) sd = imm.setWidth 32 := by
  rw [readS_writeS_self, zext32, BitVec.ofNat_toNat]

/-- Settles O23: SETS is one scalar write, with the frame of one. -/
theorem setsLoadsAConstant : Obligations.SetsLoadsAConstant := by
  obtain ⟨hspelt, hillegal⟩ := spelled_and_illegal_of_row
    (row := ⟨"SETS", 0x0C000000, 0xFFFC0000, false⟩) (by decide)
  refine ⟨hspelt, hillegal, fun sd imm s => ?_⟩
  exact ⟨_, exec_sets sd imm s, readS_writeS_zext32 s sd imm, onlyScalarAndFlagsChange_writeS s sd _, rfl, rfl⟩

end Sys2Proof.Machine

/-!
PROOF. The statements of 41_codec.md: CRST (R121), CHEX (R122, R123), CDEC (R124), and the load of a row-string, which
gives the vector of the source's algorithm (R125).
-/

namespace Sys2Proof.Machine

/-! ## CRST -/

/-- Settles O24: CRST is `clearCodec`, which writes the two codec fields alone. -/
theorem crstClearsTheCodec : Obligations.CrstClearsTheCodec := by
  obtain ⟨hspelt, hillegal⟩ := spelled_and_illegal_of_row
    (row := ⟨"CRST", 0x10000000, 0xFFFFFFFF, false⟩) (by decide)
  exact ⟨hspelt, hillegal, fun s => ⟨_, exec_crst s, rfl, rfl, onlyCodecChanges s 0 0⟩⟩

/-! ## CHEX -/

theorem raises_chex {ch : BitVec 8} {code : ErrorCode} {s : State}
    (h : ((checkDim s).or (checkHex ch)).or (checkLen s) = some code) : Raises (.chex ch) code s := by
  rw [Raises, exec_chex, h, complete_some, errorEntry]

theorem checkHex_of_isDigit {ch : BitVec 8} {d : Nat} (h : IsDigit ch d) : checkHex ch = none :=
  (checkHex_eq_none ch).mpr ⟨d, hexVal_eq_some.mpr h⟩

/-- R122, R127: where there is room for one more digit, it is appended and no bit of the accumulator is lost. -/
theorem exec_chex_of_room {ch : BitVec 8} {d : Nat} {s : State} (hdim : s.dim ≠ 0) (hsize : s.dim ≤ s.nmax)
    (hroom : s.ccnt < maxDig s.dim) (hacc : s.cacc < 2 ^ (4 * s.ccnt)) (hd : IsDigit ch d) :
    exec (.chex ch) s = .next { s with cacc := 16 * s.cacc + d, ccnt := s.ccnt + 1 } := by
  have hval : hexVal ch = some d := hexVal_eq_some.mpr hd
  have hcheck : ((checkDim s).or (checkHex ch)).or (checkLen s) = none := by
    rw [(checkDim_eq_none s).mpr hdim, checkHex_of_isDigit hd, (checkLen_eq_none s).mpr hroom.ne]
    rfl
  have hwidth : 4 * (s.ccnt + 1) ≤ 4 * maxDig s.nmax := by
    have := maxDig_mono hsize
    omega
  have hfits : 16 * s.cacc + d < 2 ^ (4 * maxDig s.nmax) :=
    (appendDigit_bound (hexVal_lt hval) hacc).trans_le (Nat.pow_le_pow_right (by omega) hwidth)
  rw [exec_chex, hcheck, complete_none, hval, Option.getD_some, appendDigit_eq (hexVal_lt hval) hfits]

/-- Settles O25: the checks stand in the order of R182, and a codec in range with room takes the digit. -/
theorem chexAppendsADigit : Obligations.ChexAppendsADigit := by
  obtain ⟨hspelt, hillegal⟩ := spelled_and_illegal_of_row
    (row := ⟨"CHEX", 0x14000000, 0xFFFFFF00, false⟩) (by decide)
  refine ⟨hspelt, hillegal, fun ch s hdim => ?_, fun ch s hdim hnot => ?_, fun ch d s hdim hd hfull => ?_,
    fun ch d s hinv hdim hd hnotFull => ?_⟩
  · exact raises_chex (by rw [checkDim_of_zero hdim]; rfl)
  · exact raises_chex (by rw [(checkDim_eq_none s).mpr hdim, checkHex_of_none (hexVal_eq_none.mpr hnot)]; rfl)
  · exact raises_chex (by
      rw [(checkDim_eq_none s).mpr hdim, checkHex_of_isDigit hd, checkLen_of_eq hfull]; rfl)
  · obtain ⟨⟨-, -, hsize⟩, -, -, ⟨hcnt, hacc⟩, -⟩ := hinv
    exact ⟨_, exec_chex_of_room hdim hsize (hcnt.lt_of_ne hnotFull) hacc hd, rfl, rfl, onlyCodecChanges s _ _⟩

/-! ## CDEC -/

theorem exec_cdec_of_dim (vd : VReg) {s : State} (hdim : s.dim ≠ 0) :
    exec (.cdec vd) s = .next (clearCodec (writeV s vd (decodeDigits s.dim s.cacc))) := by
  rw [exec_cdec, (checkDim_eq_none s).mpr hdim, complete_none]

theorem decodeDigits_zero (n : Nat) : decodeDigits n 0 = 0 :=
  Nat.zero_of_testBit_eq_false fun j => by rw [testBit_decodeDigits, Nat.zero_testBit, Bool.and_false]

/-- With no digit received the accumulator is 0 (R26). -/
theorem cacc_eq_zero {s : State} (h : CodecInRange s) (hcnt : s.ccnt = 0) : s.cacc = 0 := by
  obtain ⟨-, hacc⟩ := h
  simpa [hcnt] using hacc

/-- Settles O26, by `testBit_decodeDigits`: CDEC writes the decoded vector and clears the codec. -/
theorem cdecDecodesTheDigits : Obligations.CdecDecodesTheDigits := by
  obtain ⟨hspelt, hillegal⟩ := spelled_and_illegal_of_row
    (row := ⟨"CDEC", 0x18000000, 0xFC7FFFFF, false⟩) (by decide)
  refine ⟨hspelt, hillegal, fun vd s hdim => ?_, fun vd s hdim => ?_⟩
  · rw [Raises, exec_cdec, checkDim_of_zero hdim, complete_some, errorEntry]
  · have hread : readV (clearCodec (writeV s vd (decodeDigits s.dim s.cacc))) vd = decodeDigits s.dim s.cacc := by
      rw [readV_clearCodec, readV_writeV_self]
    refine ⟨_, exec_cdec_of_dim vd hdim, fun j hj => ?_, fun j hj => ?_, fun hinv hcnt => ?_, rfl, rfl,
      fun i hi => readV_writeV_ne s _ hi, ⟨rfl, rfl, rfl, rfl⟩, fun _ => rfl, fun _ _ => rfl, ⟨rfl, rfl⟩,
      rfl, rfl, rfl, rfl⟩
    · rw [hread, testBit_decodeDigits, decide_eq_true hj, Bool.true_and, padShift]
    · rw [hread, testBit_of_canonical (decodeDigits_lt _ _) hj]
    · obtain ⟨-, -, -, hcodec, -⟩ := hinv
      rw [hread, cacc_eq_zero hcodec hcnt, decodeDigits_zero]

/-! ## The value of a row-string, and of its bytes -/

/-- `16 * acc + d` for each digit in turn: the accumulator after a row-string, from any value before it (R122). -/
def valueFrom (acc : Nat) (digits : List Nat) : Nat := digits.foldl (fun a d => 16 * a + d) acc

theorem valueFrom_cons (acc d : Nat) (digits : List Nat) :
    valueFrom acc (d :: digits) = valueFrom (16 * acc + d) digits := rfl

/-- `val(T)` is the value from a cleared accumulator (R125). -/
theorem valueFrom_zero (digits : List Nat) : valueFrom 0 digits = rowStringValue digits := rfl

/-- A byte, the high digit before the low, appends the same value as its two digits. -/
theorem foldl_pairBytes : ∀ {digits : List Nat}, 2 ∣ digits.length → ∀ acc : Nat,
    (pairBytes digits).foldl (fun a b => b + 256 * a) acc = valueFrom acc digits
  | [], _, _ => rfl
  | [_], h, _ => by simp at h
  | high :: low :: rest, h, acc => by
    have hrest : 2 ∣ rest.length := by simp only [List.length_cons] at h; omega
    have hbyte : 16 * high + low + 256 * acc = 16 * (16 * acc + high) + low := by omega
    rw [pairBytes, List.foldl_cons, foldl_pairBytes hrest, valueFrom_cons, valueFrom_cons, hbyte]

theorem ofDigits_reverse_pairBytes {digits : List Nat} (h : 2 ∣ digits.length) :
    Nat.ofDigits 256 (pairBytes digits).reverse = rowStringValue digits := by
  rw [Nat.ofDigits_eq_foldr, List.foldr_reverse]
  exact foldl_pairBytes h 0

theorem lt_of_mem_pairBytes {digits : List Nat} (h : ∀ d ∈ digits, d < 16) :
    ∀ b ∈ pairBytes digits, b < 256 := by
  induction digits using pairBytes.induct with
  | case1 high low rest ih =>
    simp only [List.forall_mem_cons] at h
    obtain ⟨hhigh, hlow, hrest⟩ := h
    rw [pairBytes, List.forall_mem_cons]
    exact ⟨by omega, ih hrest⟩
  | case2 l hshort => simp [pairBytes]

/-- Bit `i` of a byte array, least significant byte first, is bit `i` of its value. -/
theorem byteArrayBit_eq_testBit {bytes : List Nat} (h : ∀ b ∈ bytes, b < 256) (i : Nat) :
    byteArrayBit bytes i = (Nat.ofDigits 256 bytes).testBit i := by
  induction bytes generalizing i with
  | nil => simp [byteArrayBit]
  | cons b rest ih =>
    obtain ⟨hb, hrest⟩ := List.forall_mem_cons.mp h
    have hsplit : Nat.ofDigits 256 (b :: rest) = 2 ^ 8 * Nat.ofDigits 256 rest + b := Nat.add_comm _ _
    rw [hsplit, Nat.testBit_two_pow_mul_add _ hb]
    split
    · rw [byteArrayBit, Nat.div_eq_of_lt ‹i < 8›, Nat.mod_eq_of_lt ‹i < 8›, List.getD_cons_zero]
    · obtain ⟨k, rfl⟩ : ∃ k, i = k + 8 := ⟨i - 8, by omega⟩
      rw [Nat.add_sub_cancel, ← ih hrest, byteArrayBit, byteArrayBit, Nat.add_div_right _ (by omega),
        Nat.add_mod_right, List.getD_cons_succ]

/-! ## Padding -/

/-- Zero digits put before a row-string do not change its value (R127). -/
theorem rowStringValue_replicate_append (k : Nat) (digits : List Nat) :
    rowStringValue (List.replicate k 0 ++ digits) = rowStringValue digits := by
  induction k with
  | zero => rfl
  | succ k ih => exact ih

theorem rowStringValue_padLeft (k : Nat) (digits : List Nat) :
    rowStringValue (padLeft k digits) = rowStringValue digits :=
  rowStringValue_replicate_append _ digits

theorem dvd_length_padLeft {k : Nat} (hk : 0 < k) (digits : List Nat) : k ∣ (padLeft k digits).length := by
  have hlt := Nat.mod_lt digits.length hk
  have hdiv := Nat.div_add_mod digits.length k
  have hsum : k - digits.length % k + digits.length = k * (digits.length / k + 1) := by
    rw [Nat.mul_succ]
    omega
  rw [padLeft, List.length_append, List.length_replicate, Nat.dvd_iff_mod_eq_zero, Nat.mod_add_mod, hsum,
    Nat.mul_mod_right]

theorem lt_of_mem_padLeft (k : Nat) {digits : List Nat} (h : ∀ d ∈ digits, d < 16) :
    ∀ d ∈ padLeft k digits, d < 16 := by
  intro d hd
  rcases List.mem_append.mp hd with hd | hd
  · rw [List.eq_of_mem_replicate hd]
    decide
  · exact h d hd

/-- R125: the source's byte array holds the value of the row-string, whatever even width it is padded to (C1). -/
theorem sourceDecode_eq {width : Nat} (hpos : 0 < width) (heven : width % 2 = 0) (n : Nat) {digits : List Nat}
    (h : ∀ d ∈ digits, d < 16) : sourceDecode width n digits = decodeDigits n (rowStringValue digits) := by
  have hpairs : 2 ∣ (padLeft width (padLeft 2 digits)).length :=
    (Nat.dvd_of_mod_eq_zero heven).trans (dvd_length_padLeft hpos _)
  have hbytes : ∀ b ∈ sourceBytes width digits, b < 256 := fun b hb =>
    lt_of_mem_pairBytes (lt_of_mem_padLeft width (lt_of_mem_padLeft 2 h)) b (List.mem_reverse.mp hb)
  have hvalue : Nat.ofDigits 256 (sourceBytes width digits) = rowStringValue digits := by
    rw [sourceBytes, ofDigits_reverse_pairBytes hpairs, rowStringValue_padLeft, rowStringValue_padLeft]
  simp only [sourceDecode, decodeDigits, byteArrayBit_eq_testBit hbytes, hvalue]

/-! ## Submitted commands -/

/-- The host inputs that submit a list of commands. -/
def submissions (l : List Instr) : List HostInput := l.map fun i => .submit (encode i)

/-- A running block handles the word of a command by the command's rule, counts it, and goes on with the rest (R183). -/
theorem handleAll_submissions_cons {i : Instr} {s t : State} (l : List Instr) (hword : Laws.Encoding.Statement i)
    (hwf : i.wellFormed = true) (hi : i ≠ .srst) (herr : s.err = false) (h : exec i s = .next t) :
    handleAll (submissions (i :: l)) s = handleAll (submissions l) (countWord t) := by
  have hdecode : decode (encode i) = .ok i := by rw [hword, if_pos hwf]
  have hinput : handleInput (.submit (encode i)) s = .next (countWord t) := by
    rw [handleInput, commandStep, herr, if_neg Bool.false_ne_true, runningStep_of_decode hdecode hi, h, thenCount]
  exact handleAll_cons hinput _

/-- One CHEX for each digit of a row-string that there is room for, from a running block: the accumulator takes the
digits in turn (R122), and the rest of the commands go on from there. -/
theorem handleAll_chexs {chars : List (BitVec 8)} {digits : List Nat} (hdigits : List.Forall₂ IsDigit chars digits)
    (l : List Instr) {s : State} (herr : s.err = false) (hdim : s.dim ≠ 0) (hsize : s.dim ≤ s.nmax)
    (hroom : s.ccnt + digits.length ≤ maxDig s.dim) (hacc : s.cacc < 2 ^ (4 * s.ccnt)) :
    ∃ t, handleAll (submissions (pseudoChexs chars ++ l)) s = handleAll (submissions l) t ∧
      t.err = false ∧ t.dim = s.dim ∧ t.cacc = valueFrom s.cacc digits := by
  induction hdigits generalizing s with
  | nil => exact ⟨s, rfl, herr, rfl, rfl⟩
  | @cons ch d chars digits hd _ ih =>
    rw [List.length_cons] at hroom
    have hexec := exec_chex_of_room hdim hsize (by omega) hacc hd
    obtain ⟨t, hrun, herr', hdim', hacc'⟩ :=
      ih (s := countWord { s with cacc := 16 * s.cacc + d, ccnt := s.ccnt + 1 }) herr hdim hsize
        (by simp only [countWord_ccnt, countWord_dim]; omega)
        (appendDigit_bound (hexVal_lt (hexVal_eq_some.mpr hd)) hacc)
    refine ⟨t, ?_, herr', hdim', hacc'⟩
    exact (handleAll_submissions_cons _ (Laws.Encoding.chex ch) rfl (by simp) herr hexec).trans hrun

/-! ## Loading a row-string -/

theorem digits_lt_of_isDigit {chars : List (BitVec 8)} {digits : List Nat}
    (h : List.Forall₂ IsDigit chars digits) : ∀ d ∈ digits, d < 16 := by
  induction h with
  | nil => simp
  | cons hd _ ih => exact List.forall_mem_cons.mpr ⟨hexVal_lt (hexVal_eq_some.mpr hd), ih⟩

/-- R125: the words of LDVEC leave the decoded value of the row-string in the register, with the codec cleared. -/
theorem handleAll_ldvec {s : State} (vd : VReg) {chars : List (BitVec 8)} {digits : List Nat}
    (herr : s.err = false) (hdim : s.dim ≠ 0) (hsize : s.dim ≤ s.nmax)
    (hdigits : List.Forall₂ IsDigit chars digits) (hlen : digits.length ≤ maxDig s.dim) :
    ∃ t, handleAll (submissions (pseudoLdvec vd chars)) s = .next t ∧
      readV t vd = decodeDigits s.dim (rowStringValue digits) ∧ t.cacc = 0 ∧ t.ccnt = 0 ∧ t.err = false ∧
      t.dim = s.dim := by
  have hcrst : handleAll (submissions (pseudoLdvec vd chars)) s =
      handleAll (submissions (pseudoChexs chars ++ [.cdec vd])) (countWord (clearCodec s)) :=
    handleAll_submissions_cons _ Laws.Encoding.crst rfl (by simp) herr (exec_crst s)
  obtain ⟨u, hchexs, herr', hdim', hacc⟩ := handleAll_chexs hdigits [.cdec vd]
    (s := countWord (clearCodec s)) herr hdim hsize (by simpa using hlen) (by simp)
  rw [countWord_dim, clearCodec_dim] at hdim'
  rw [countWord_cacc, clearCodec_cacc, valueFrom_zero] at hacc
  have hcdec := handleAll_submissions_cons [] (Laws.Encoding.cdec vd) rfl (by simp) herr'
    (exec_cdec_of_dim vd (hdim' ▸ hdim))
  refine ⟨_, hcrst.trans (hchexs.trans hcdec), ?_, rfl, rfl, herr', hdim'⟩
  rw [readV_countWord, readV_clearCodec, readV_writeV_self, hdim', hacc]

/-- Settles O30: `handleAll_ldvec` gives the decoded value of the row-string, and `sourceDecode_eq` says that it is the
source's vector. -/
theorem loadingARowStringDecodesIt : Obligations.LoadingARowStringDecodesIt := by
  intro s vd width chars digits hinv herr hdim hdigits hlen hpos heven
  obtain ⟨⟨-, -, hsize⟩, -⟩ := hinv
  rw [sourceDecode_eq hpos heven s.dim (digits_lt_of_isDigit hdigits)]
  exact handleAll_ldvec vd herr hdim hsize hdigits hlen

end Sys2Proof.Machine

/-!
PROOF. The statements of 42_gf2.md: MRD (R142), MVC (R143) and VMR (R146), and the products they compute in natural
indices (R144, R147).
-/

namespace Sys2Proof.Machine

/-! ## The errors of a command -/

/-- R184: a command takes the first error that its checks find. -/
theorem raises_of_complete {i : Instr} {check : Option ErrorCode} {code : ErrorCode} {s effect : State}
    (h : exec i s = complete i check s effect) (hc : check = some code) : Raises i code s := by
  rw [Raises, h, hc, complete_some, errorEntry]

theorem raises_illegal_of_withBank {i : Instr} {mb : BankCode} {s : State}
    {run : Bank → Host.Outcome State Fault Refusal} (hmb : namesBank mb = false)
    (h : exec i s = withBank i mb s run) : Raises i .illegal s := by
  have hnone : bankOf mb = none := by simpa using (bankOf_isSome mb).trans hmb
  rw [Raises, h, withBank_none hnone, errorEntry]

/-- R80, R182: a command whose bank code names no bank takes E_ILLEGAL, before its other checks. -/
theorem raises_illegal_of_illFormed {i : Instr} {s : State} (h : i.wellFormed = false) : Raises i .illegal s := by
  cases i with
  | mwr mb sa va => exact raises_illegal_of_withBank h rfl
  | mrd vd mb sa => exact raises_illegal_of_withBank h rfl
  | mvc vd mb va => exact raises_illegal_of_withBank h rfl
  | vmr vd va mb => exact raises_illegal_of_withBank h rfl
  | _ => cases h

/-! ## MRD -/

theorem exec_mrd_of_index (vd : VReg) (b : Bank) {sa : SReg} {s : State} (h : readIndex s sa < s.dim) :
    exec (.mrd vd (codeOf b) sa) s = .next (writeV s vd (matRead s.mem b (readIndex s sa))) := by
  rw [exec_mrd, (checkDim_eq_none s).mpr (by omega), (checkIndex_eq_none s sa).mpr h, Option.or_none, complete_none]

/-- Settles O32: the checks stand in the order of R182, and an index below DIM reads its row into the register. -/
theorem mrdReadsARow : Obligations.MrdReadsARow := by
  obtain ⟨hspelt, hillegal⟩ := spelled_and_illegal_of_row
    (row := ⟨"MRD", 0x24000000, 0xFC7E67FF, true⟩) (by decide)
  refine ⟨hspelt, hillegal, fun _ _ _ => raises_illegal_of_illFormed rfl, fun vd b sa s hdim => ?_,
    fun vd b sa s hdim hidx => ?_, fun vd b sa s hidx => ?_⟩
  · exact raises_of_complete (exec_mrd vd b sa s) (by rw [checkDim_of_zero hdim, Option.some_or])
  · exact raises_of_complete (exec_mrd vd b sa s)
      (by rw [(checkDim_eq_none s).mpr hdim, Option.none_or, checkIndex_of_le hidx])
  · exact ⟨_, exec_mrd_of_index vd b hidx, readV_writeV_self s vd _, onlyVectorChanges_writeV s vd _⟩

/-! ## MVC -/

theorem exec_mvc_of_dim (vd : VReg) (b : Bank) (va : VReg) {s : State} (hdim : s.dim ≠ 0) :
    exec (.mvc vd (codeOf b) va) s = .next (writeV s vd (matVec s.mem b s.dim (readV s va))) := by
  rw [exec_mvc, (checkDim_eq_none s).mpr hdim, complete_none]

/-- The position that R143 and R146 name for index `i` is the one of the reversed-index map (R8). -/
theorem sub_one_sub_eq_revIndex (n i : Nat) : n - 1 - i = revIndex n i := Nat.sub_right_comm n 1 i

/-- R143: natural component `i` of MVC's result is the GF(2) sum of the bits that row `i` and the vector share. -/
theorem component_matVec (m : Memory) (b : Bank) (x : Nat) {n i : Nat} (hi : i < n) :
    component n (matVec m b n x) i = xorSum (fun j => (matRead m b i).testBit j && x.testBit j) n := by
  rw [component, testBit_matVec, decide_eq_true (revIndex_lt hi), Bool.true_and, revIndex_revIndex hi,
    parity_eq_xorSum]
  simp only [Nat.testBit_and]

/-- Settles O33, by `component_matVec`: a GF(2) sum is the parity of the count of its ones. -/
theorem mvcPlacesRowParities : Obligations.MvcPlacesRowParities := by
  obtain ⟨hspelt, hillegal⟩ := spelled_and_illegal_of_row
    (row := ⟨"MVC", 0x28000000, 0xFC0E7FFF, true⟩) (by decide)
  refine ⟨hspelt, hillegal, fun _ _ _ => raises_illegal_of_illFormed rfl,
    fun vd b va s hdim => raises_of_complete (exec_mvc vd b va s) (checkDim_of_zero hdim), fun vd b va s hdim => ?_⟩
  refine ⟨_, exec_mvc_of_dim vd b va hdim, fun i hi => ?_, fun j hj => ?_, onlyVectorChanges_writeV s vd _⟩
  · rw [readV_writeV_self, sub_one_sub_eq_revIndex, ← component, component_matVec _ _ _ hi, xorSum_eq_countBelow]
  · rw [readV_writeV_self, testBit_of_canonical (matVec_lt _ _ _ _) hj]

/-- Settles O36: the sum of `component_matVec` over raw positions is the sum over natural columns in reverse order. -/
theorem mvcIsTheMatrixVectorProduct : Obligations.MvcIsTheMatrixVectorProduct := by
  refine fun vd b va s hdim => ⟨_, exec_mvc_of_dim vd b va hdim, fun i hi => ?_⟩
  rw [readV_writeV_self, component_matVec _ _ _ hi, ← xorSum_revIndex]
  simp only [entry, component]

/-! ## VMR -/

theorem exec_vmr_of_dim (vd va : VReg) (b : Bank) {s : State} (hdim : s.dim ≠ 0) :
    exec (.vmr vd va (codeOf b)) s = .next (writeV s vd (vecMat s.mem b s.dim (readV s va))) := by
  rw [exec_vmr, (checkDim_eq_none s).mpr hdim, complete_none]

/-- R147: in natural indices, the rows that VMR adds are those at the set components of the vector. -/
theorem component_vecMat (m : Memory) (b : Bank) (n y c : Nat) :
    component n (vecMat m b n y) c = xorSum (fun k => component n y k && entry m b n k c) n := by
  rw [component, testBit_vecMat, ← xorSum_revIndex]
  refine xorSum_congr fun k hk => ?_
  rw [revIndex_revIndex hk, entry, component, component]

/-- Settles O34, by `testBit_vecMat`: a GF(2) sum is the parity of the count of its ones. -/
theorem vmrAddsSelectedRows : Obligations.VmrAddsSelectedRows := by
  obtain ⟨hspelt, hillegal⟩ := spelled_and_illegal_of_row
    (row := ⟨"VMR", 0x2C000000, 0xFC0E7FFF, true⟩) (by decide)
  refine ⟨hspelt, hillegal, fun _ _ _ => raises_illegal_of_illFormed rfl,
    fun vd va b s hdim => raises_of_complete (exec_vmr vd va b s) (checkDim_of_zero hdim), fun vd va b s hdim => ?_⟩
  refine ⟨_, exec_vmr_of_dim vd va b hdim, fun j => ?_, fun hinv j hj => ?_, onlyVectorChanges_writeV s vd _⟩
  · simp only [readV_writeV_self, testBit_vecMat, xorSum_eq_countBelow, sub_one_sub_eq_revIndex]
  · obtain ⟨-, -, hrows, -⟩ := hinv
    have hlt : ∀ r, matRead s.mem b r < 2 ^ s.dim := fun r => (matRead_canonical hrows b r).1
    rw [readV_writeV_self, testBit_of_canonical (vecMat_lt hlt _) hj]

/-- Settles O37, by `component_vecMat`. -/
theorem vmrIsTheVectorMatrixProduct : Obligations.VmrIsTheVectorMatrixProduct := by
  refine fun vd va b s hdim => ⟨_, exec_vmr_of_dim vd va b hdim, fun c _ => ?_⟩
  rw [readV_writeV_self, component_vecMat]

end Sys2Proof.Machine

/-!
PROOF. The statements of 43_bitvector.md: VAND (R160), VXOR (R161), VPOP (R162), VBIT (R163) and VDIFF (R164).
-/

namespace Sys2Proof.Machine

/-- R182: a command whose checks find no error takes its effect. -/
theorem next_of_complete {i : Instr} {check : Option ErrorCode} {s effect : State}
    (h : exec i s = complete i check s effect) (hc : check = none) : exec i s = .next effect := by
  rw [h, hc, complete_none]

/-- A number of at most 32 bits is kept by its zero extension (R7). -/
theorem toNat_zext32 {n : Nat} (h : n < 2 ^ 32) : (zext32 n).toNat = n := by
  rw [zext32, BitVec.toNat_ofNat, Nat.mod_eq_of_lt h]

/-! ## VAND and VXOR -/

/-- Settles O40: the result is the bitwise AND of the two registers as they were read. -/
theorem vandIsBitwise : Obligations.VandIsBitwise := by
  obtain ⟨hspelt, hillegal⟩ := spelled_and_illegal_of_row
    (row := ⟨"VAND", 0x40000000, 0xFC01FFFF, false⟩) (by decide)
  refine ⟨hspelt, hillegal,
    fun vd va vb s hdim => raises_of_complete (exec_vand vd va vb s) (checkDim_of_zero hdim),
    fun vd va vb s hdim => ?_⟩
  refine ⟨_, next_of_complete (exec_vand vd va vb s) ((checkDim_eq_none s).mpr hdim), fun j => ?_, ?_,
    onlyVectorChanges_writeV s vd _⟩
  · rw [readV_writeV_self, Nat.testBit_and]
  · rintro rfl
    rw [readV_writeV_self, Nat.and_self]

/-- Settles O41: the result is the bitwise XOR of the two registers as they were read. -/
theorem vxorIsBitwise : Obligations.VxorIsBitwise := by
  obtain ⟨hspelt, hillegal⟩ := spelled_and_illegal_of_row
    (row := ⟨"VXOR", 0x44000000, 0xFC01FFFF, false⟩) (by decide)
  refine ⟨hspelt, hillegal,
    fun vd va vb s hdim => raises_of_complete (exec_vxor vd va vb s) (checkDim_of_zero hdim),
    fun vd va vb s hdim => ?_⟩
  refine ⟨_, next_of_complete (exec_vxor vd va vb s) ((checkDim_eq_none s).mpr hdim), fun j => ?_, ?_,
    onlyVectorChanges_writeV s vd _⟩
  · rw [readV_writeV_self, Nat.testBit_xor]
  · rintro rfl
    rw [readV_writeV_self, Nat.xor_self]

/-! ## VPOP -/

/-- R11: the popcount is the number of set positions below `n`. -/
theorem popcount_eq_countBelow (n x : Nat) : popcount n x = countBelow n (fun j => x.testBit j) :=
  popcount_eq_length n x

/-- Settles O42: the flags test the exact count, and a count of at most 4096 positions fits the scalar register. -/
theorem vpopCountsBits : Obligations.VpopCountsBits := by
  obtain ⟨hspelt, hillegal⟩ := spelled_and_illegal_of_row
    (row := ⟨"VPOP", 0x48000000, 0xFF8F9FFF, false⟩) (by decide)
  refine ⟨hspelt, hillegal,
    fun sd va s hdim => raises_of_complete (exec_vpop sd va s) (checkDim_of_zero hdim),
    fun sd va s hdim hsize => ?_⟩
  have hle : popcount s.dim (readV s va) ≤ s.dim := popcount_le _ _
  rw [← popcount_eq_countBelow]
  refine ⟨_, next_of_complete (exec_vpop sd va s) ((checkDim_eq_none s).mpr hdim), ?_, writeCountFlags_z _ _,
    writeCountFlags_p _ _, onlyScalarAndFlagsChange_writeCountFlags s sd _ _⟩
  rw [readS_writeCountFlags, readS_writeS_self, toNat_zext32 (by omega)]

/-! ## VBIT -/

theorem zext32_toNat_bool (b : Bool) : zext32 b.toNat = if b then 1 else 0 := by
  cases b <;> rfl

/-- Settles O43: the checks stand in the order of R182, and an index below DIM reads its raw bit. -/
theorem vbitReadsARawBit : Obligations.VbitReadsARawBit := by
  obtain ⟨hspelt, hillegal⟩ := spelled_and_illegal_of_row
    (row := ⟨"VBIT", 0x4C000000, 0xFF8F87FF, false⟩) (by decide)
  refine ⟨hspelt, hillegal, fun sd va sa s hdim => ?_, fun sd va sa s hdim hidx => ?_, fun sd va sa s hidx => ?_⟩
  · exact raises_of_complete (exec_vbit sd va sa s) (by rw [checkDim_of_zero hdim, Option.some_or])
  · exact raises_of_complete (exec_vbit sd va sa s)
      (by rw [(checkDim_eq_none s).mpr hdim, Option.none_or, checkIndex_of_le hidx])
  · have hchecks : (checkDim s).or (checkIndex s sa) = none := by
      rw [(checkDim_eq_none s).mpr (by omega), (checkIndex_eq_none s sa).mpr hidx, Option.or_none]
    refine ⟨_, next_of_complete (exec_vbit sd va sa s) hchecks, ?_, onlyScalarAndFlagsChange_writeS s sd _,
      writeS_z s sd _, writeS_p s sd _⟩
    rw [readS_writeS_self, zext32_toNat_bool, readIndex]

/-! ## VDIFF -/

theorem diffIndex_none (n : Nat) : diffIndex n none = 0xFFFFFFFF := rfl

theorem toNat_diffIndex_some {n : Nat} (hn : n ≤ 4096) (d : Nat) :
    (diffIndex n (some d)).toNat = n - d - 1 := by
  rw [diffIndex, revIndex, toNat_zext32 (by omega)]

/-- Two bit strings agree at a position where their XOR is 0, so VDIFF looks for the lowest set bit of the XOR. -/
theorem testBit_xor_eq_false {x y j : Nat} :
    (x ^^^ y).testBit j = false ↔ x.testBit j = y.testBit j := by
  rw [Nat.testBit_xor, bne_eq_false_iff_eq]

theorem testBit_xor_eq_true {x y j : Nat} :
    (x ^^^ y).testBit j = true ↔ x.testBit j ≠ y.testBit j := by
  rw [Nat.testBit_xor, bne_iff_ne]

theorem exec_vdiff_of_lowestSet (sd : SReg) {va vb : VReg} {s : State} {found : Option Nat} (hdim : s.dim ≠ 0)
    (hfound : lowestSet s.dim (readV s va ^^^ readV s vb) = found) :
    exec (.vdiff sd va vb) s = .next (writeZ (writeS s sd (diffIndex s.dim found)) found.isNone) := by
  rw [← hfound]
  exact next_of_complete (exec_vdiff sd va vb s) ((checkDim_eq_none s).mpr hdim)

/-- Settles O44: the lowest set bit of the XOR is the lowest difference, and there is none when the registers agree
below DIM. -/
theorem vdiffFindsTheFirstDifference : Obligations.VdiffFindsTheFirstDifference := by
  obtain ⟨hspelt, hillegal⟩ := spelled_and_illegal_of_row
    (row := ⟨"VDIFF", 0x50000000, 0xFF819FFF, false⟩) (by decide)
  refine ⟨hspelt, hillegal,
    fun sd va vb s hdim => raises_of_complete (exec_vdiff sd va vb s) (checkDim_of_zero hdim),
    fun sd va vb s hdim hsame => ?_, fun sd va vb s d hsize hd hdiff hbelow => ?_⟩
  · have hfound : lowestSet s.dim (readV s va ^^^ readV s vb) = none :=
      (lowestSet_eq_none _ _).mpr fun j hj => testBit_xor_eq_false.mpr (hsame j hj)
    refine ⟨_, exec_vdiff_of_lowestSet sd hdim hfound, ?_, rfl, rfl, onlyScalarAndFlagsChange_writeZ s sd _ _⟩
    rw [readS_writeZ, readS_writeS_self, diffIndex_none]
  · have hfound : lowestSet s.dim (readV s va ^^^ readV s vb) = some d :=
      lowestSet_eq_some.mpr
        ⟨hd, testBit_xor_eq_true.mpr hdiff, fun j hj => testBit_xor_eq_false.mpr (hbelow j hj)⟩
    refine ⟨_, exec_vdiff_of_lowestSet sd (by omega) hfound, ?_, rfl, rfl, onlyScalarAndFlagsChange_writeZ s sd _ _⟩
    rw [readS_writeZ, readS_writeS_self, toNat_diffIndex_some hsize]

end Sys2Proof.Machine

/-!
PROOF. The statements of 60_exceptions.md: the whole step on a submitted word (R183), the halted state (R186), precise
errors (R184), and which error a command takes (R180 to R182).
-/

namespace Sys2Proof.Machine

/-! ## The whole step -/

theorem step_of_halted {s : State} {w : Word} {rest : List HostInput} (hin : s.input = .submit w :: rest)
    (herr : s.err = true) : step s = haltedStep w (withInput rest s) :=
  (step_submit hin).trans (if_pos herr)

theorem step_of_running {s : State} {w : Word} {rest : List HostInput} (hin : s.input = .submit w :: rest)
    (herr : s.err = false) : step s = runningStep w (withInput rest s) :=
  (step_submit hin).trans (if_neg (by simp [herr]))

/-- R186: a halted block only counts a word that is not SRST's. -/
theorem step_of_dropped {s : State} {w : Word} {rest : List HostInput} (hin : s.input = .submit w :: rest)
    (herr : s.err = true) (hw : w ≠ srstWord) : step s = .next (countWord (withInput rest s)) :=
  (step_of_halted hin herr).trans (if_neg hw)

/-- Settles O10: each case is one branch of the command step. -/
theorem stepRunsTheDecodedCommand : Obligations.StepRunsTheDecodedCommand := by
  intro s w rest hin
  refine ⟨fun herr hw => (step_of_halted hin herr).trans (if_pos hw), step_of_dropped hin,
    fun herr hd => takesIllegal_of_not_ok hd ⟨herr, by rw [hin, List.head?_cons]⟩, fun herr hd => ?_,
    fun i herr hd hi => ?_⟩
  · rw [step_of_running hin herr, runningStep, hd, withInput]
  · obtain ⟨t, ht⟩ := exec_isNext i (withInput rest s)
    refine ⟨t, ht, ?_⟩
    rw [step_of_running hin herr, runningStep_of_decode hd hi, ht, thenCount, countWord]

/-! ## The halted state -/

/-- No host register shows what waits (R31). -/
theorem readRegister_withInput (l : List HostInput) (s : State) (a : BitVec 16) :
    readRegister (withInput l s) a = readRegister s a := rfl

/-- The count is seen at CMDCNT's address alone (R31). -/
theorem readRegister_countWord (s : State) {a : BitVec 16} (ha : a ≠ 0x0003) :
    readRegister (countWord s) a = readRegister s a := by
  unfold readRegister
  split
  case h_4 h => exact absurd (BitVec.eq_of_toNat_eq h) ha
  all_goals rfl

/-- Settles O12: a dropped word is only counted, and only CMDCNT's register shows the count. -/
theorem haltedBlockDropsWords : Obligations.HaltedBlockDropsWords := by
  intro s w rest hin herr hw
  refine ⟨_, step_of_dropped hin herr hw, rfl, fun a ha => ?_⟩
  rw [readRegister_countWord _ ha, readRegister_withInput]

/-! ## The word of a decoded command -/

/-- A field that a row's mask covers is that of the row's match word (R77). -/
theorem extractLsb'_of_masked {w matchWord mask : Word} (h : w &&& mask = matchWord) (start len : Nat)
    (hmask : mask.extractLsb' start len = BitVec.allOnes len) :
    w.extractLsb' start len = matchWord.extractLsb' start len := by
  rw [← h, BitVec.extractLsb'_and, hmask, BitVec.and_allOnes]

/-! A word whose unused bits are 0 is put together again from its fields (R71 to R74). -/

theorem formatN_fields {w : Word} (hzero : w.extractLsb' 0 26 = 0#26) : formatN (opcodeField w) = w := by
  rw [formatN, ← hzero]
  simp (disch := decide) only [opcodeField, BitVec.extractLsb'_append_extractLsb'_eq_extractLsb',
    BitVec.extractLsb'_eq_self, -Nat.reduceAdd]

theorem formatI_fields {w : Word} (hzero : w.extractLsb' 18 8 = 0#8) :
    formatI (opcodeField w) (sdFieldI w) (immField w) = w := by
  rw [formatI, ← hzero]
  simp (disch := decide) only [opcodeField, sdFieldI, immField,
    BitVec.extractLsb'_append_extractLsb'_eq_extractLsb', BitVec.extractLsb'_eq_self, -Nat.reduceAdd]

theorem formatC_fields {w : Word} (hzero : w.extractLsb' 8 18 = 0#18) :
    formatC (opcodeField w) (chField w) = w := by
  rw [formatC, ← hzero]
  simp (disch := decide) only [opcodeField, chField,
    BitVec.extractLsb'_append_extractLsb'_eq_extractLsb', BitVec.extractLsb'_eq_self, -Nat.reduceAdd]

theorem formatV_fields {w : Word} (hzero : w.extractLsb' 0 11 = 0#11) :
    formatV (opcodeField w) (vdField w) (vaField w) (vbField w) (mbField w) (sdField w) (saField w) = w := by
  rw [formatV, ← hzero]
  simp (disch := decide) only [opcodeField, vdField, vaField, vbField, mbField, sdField, saField,
    BitVec.extractLsb'_append_extractLsb'_eq_extractLsb', BitVec.extractLsb'_eq_self, -Nat.reduceAdd]

/-- A word that spells a command is the command's encoding (R77, R83): the fields that the row's mask covers are those
of the match word, and the others are the command's operands. -/
theorem encode_of_decode {w : Word} {i : Instr} (hd : decode w = .ok i) : encode i = w := by
  unfold decode at hd
  split at hd
  on_goal 17 => cases hd
  all_goals
    obtain ⟨hmatch, -, rfl⟩ := accept_eq_ok.mp hd
    have hfield := extractLsb'_of_masked hmatch
  case h_1 | h_2 | h_5 =>
    refine .trans ?_ (formatN_fields (hfield 0 26 rfl))
    simp [encode, opcodeField, hfield]
  case h_3 | h_4 =>
    refine .trans ?_ (formatI_fields (hfield 18 8 rfl))
    simp [encode, opcodeField, sdFieldI, hfield]
  case h_6 =>
    refine .trans ?_ (formatC_fields (hfield 8 18 rfl))
    simp [encode, opcodeField, hfield]
  all_goals
    refine .trans ?_ (formatV_fields (hfield 0 11 rfl))
    simp [encode, opcodeField, vdField, vaField, vbField, mbField, sdField, saField, hfield]

/-! ## Precise errors -/

/-- A command that completes does not set ERR. -/
theorem effectOf_err (i : Instr) (b : Bank) {s : State} (herr : s.err = false) : (effectOf i b s).err = false := by
  cases i with
  | srst => rfl
  | _ => exact herr

/-- R184: a command that halts a running block only takes its error. -/
theorem errorEntry_of_exec {i : Instr} {s t : State} (herr : s.err = false) (h : exec i s = .next t)
    (ht : t.err = true) : ∃ c, t = errorEntry c (encode i) s := by
  rcases exec_cases h with ⟨-, b, rfl⟩ | ⟨-, hentry⟩
  · simp [effectOf_err i b herr] at ht
  · exact hentry

/-- R184: a word that halts a running block takes its error with that word, and is counted. -/
theorem countWord_errorEntry_of_commandStep {w : Word} {s t : State} (herr : s.err = false)
    (h : commandStep w s = .next t) (ht : t.err = true) : ∃ c, t = countWord (errorEntry c w s) := by
  rcases commandStep_cases h with ⟨hs, -⟩ | ⟨hs, -⟩ | ⟨-, -, rfl⟩ | ⟨-, -, rfl⟩ | ⟨-, i, u, hd, -, hu, rfl⟩
  · simp [herr] at hs
  · simp [herr] at hs
  · exact ⟨.illegal, rfl⟩
  · simp at ht
  · obtain ⟨c, rfl⟩ := errorEntry_of_exec herr hu ht
    exact ⟨c, by rw [encode_of_decode hd]⟩

/-- Settles O15: the error entry writes the word itself, which is the encoding of the command it spells. -/
theorem errorsArePrecise : Obligations.ErrorsArePrecise := by
  intro s t w rest hin herr h ht
  rw [step_submit hin] at h
  exact countWord_errorEntry_of_commandStep (s := { s with input := rest }) herr h ht

/-! ## The error a command takes -/

/-- The check of a command that stands below E_ILLEGAL and E_NODIM (R182). -/
def ownCheck (i : Instr) (s : State) : Option ErrorCode :=
  match i with
  | .setdim imm => checkDimRange s imm
  | .chex ch => (checkHex ch).or (checkLen s)
  | .mwr _ sa _ | .mrd _ _ sa | .vbit _ _ sa => checkIndex s sa
  | .nop | .srst | .sets _ _ | .crst | .cdec _ | .mvc _ _ _ | .vmr _ _ _
  | .vand _ _ _ | .vxor _ _ _ | .vpop _ _ | .vdiff _ _ _ => none

/-- The first error that the checks of a command find, in the order of R182. -/
def firstError (i : Instr) (s : State) : Option ErrorCode :=
  if i.wellFormed then (if needsDim i then checkDim s else none).or (ownCheck i s) else some .illegal

theorem firstError_of_illFormed {i : Instr} (h : i.wellFormed = false) (s : State) :
    firstError i s = some .illegal := by
  simp [firstError, h]

theorem firstError_of_noDim {i : Instr} {s : State} (h : i.wellFormed = true) (hneeds : needsDim i = true)
    (hdim : s.dim = 0) : firstError i s = some .noDim := by
  simp [firstError, h, hneeds, checkDim_of_zero hdim]

theorem firstError_of_dim {i : Instr} {s : State} (h : i.wellFormed = true)
    (hdim : ¬(needsDim i = true ∧ s.dim = 0)) : firstError i s = ownCheck i s := by
  have hnone : (if needsDim i then checkDim s else none) = none := by
    split
    · exact (checkDim_eq_none s).mpr fun h0 => hdim ⟨‹_›, h0⟩
    · rfl
  rw [firstError, if_pos h, hnone, Option.none_or]

/-- Every command makes the checks of `firstError`, and then has its effect. -/
theorem exec_eq_complete (i : Instr) (s : State) :
    ∃ b, exec i s = complete i (firstError i s) s (effectOf i b s) := by
  cases hwf : i.wellFormed with
  | false =>
    refine ⟨.bankA, ?_⟩
    rw [firstError_of_illFormed hwf, complete_some]
    exact raises_illegal_of_illFormed hwf
  | true =>
    rw [firstError, if_pos hwf]
    cases i with
    | mwr mb | mrd _ mb | mvc _ mb | vmr _ _ mb =>
      obtain ⟨b, hb⟩ := bankOf_of_namesBank hwf
      refine ⟨b, (withBank_some hb _ _ _).trans ?_⟩
      simp [needsDim, ownCheck, effectOf]
    | chex ch =>
      refine ⟨.bankA, ?_⟩
      rw [ownCheck, ← Option.or_assoc]
      rfl
    | cdec | vand | vxor | vpop | vdiff =>
      refine ⟨.bankA, ?_⟩
      rw [ownCheck, Option.or_none]
      rfl
    | nop | srst | setdim | sets | crst | vbit => exact ⟨.bankA, rfl⟩

theorem raises_of_firstError {i : Instr} {code : ErrorCode} {s : State} (h : firstError i s = some code) :
    Raises i code s := by
  obtain ⟨b, hb⟩ := exec_eq_complete i s
  exact raises_of_complete hb h

/-- A running block's command takes no error but the first that its checks find. -/
theorem raises_iff_firstError {i : Instr} {code : ErrorCode} {s : State} (herr : s.err = false) :
    Raises i code s ↔ firstError i s = some code := by
  refine ⟨fun h => ?_, raises_of_firstError⟩
  obtain ⟨b, hb⟩ := exec_eq_complete i s
  rw [Raises, hb] at h
  rcases complete_cases h with ⟨-, ht⟩ | ⟨c, hc, ht⟩
  · have hrun := effectOf_err i b herr
    simp [← ht] at hrun
  · have hcode : some code = some c := congrArg State.ecode ht
    rw [hc, hcode]

/-- Settles O16: the checks of `firstError` give E_NODIM to a well-formed command that needs a dimension. -/
theorem commandsNeedADimension : Obligations.CommandsNeedADimension := by
  refine ⟨fun s sd imm herr i hi => ?_,
    fun i s hwf hneeds hdim => raises_of_firstError (firstError_of_noDim hwf hneeds hdim),
    fun s imm herr _ hlow hhigh => ⟨_, exec_setdim_of_inside hlow hhigh, herr⟩⟩
  simp only [List.mem_cons, List.not_mem_nil, or_false] at hi
  rcases hi with rfl | rfl | rfl | rfl
  · exact ⟨_, exec_nop s, herr⟩
  · exact ⟨_, exec_srst s, rfl⟩
  · exact ⟨_, exec_sets sd imm s, herr⟩
  · exact ⟨_, exec_crst s, herr⟩

/-! ## The order of the errors -/

theorem wellFormed_of_not_illegal {i : Instr} {s : State} (h : ¬ errorCause .illegal i s) : i.wellFormed = true :=
  Bool.eq_true_of_not_eq_false h

theorem checkDimRange_eq_some {s : State} {imm : BitVec 16} {c : ErrorCode} :
    checkDimRange s imm = some c ↔ (imm.toNat = 0 ∨ s.nmax < imm.toNat) ∧ .dimRange = c := by
  rw [checkDimRange, ← ite_or, Option.ite_none_right_eq_some, Option.some.injEq]

theorem checkIndex_eq_some {s : State} {sa : SReg} {c : ErrorCode} :
    checkIndex s sa = some c ↔ s.dim ≤ readIndex s sa ∧ .idx = c := by
  rw [checkIndex, Option.ite_none_right_eq_some, Option.some.injEq]

theorem checkLen_eq_some {s : State} {c : ErrorCode} :
    checkLen s = some c ↔ s.ccnt = maxDig s.dim ∧ .len = c := by
  rw [checkLen, Option.ite_none_right_eq_some, Option.some.injEq]

theorem checkHex_eq_some {ch : BitVec 8} {c : ErrorCode} :
    checkHex ch = some c ↔ (∀ d, ¬ IsDigit ch d) ∧ .hex = c := by
  rw [checkHex, Option.ite_none_right_eq_some, Option.some.injEq, Option.isNone_iff_eq_none, hexVal_eq_none]

/-- R141, R142, R163: a command with an index operand checks it. -/
theorem ownCheck_of_indexOperand {i : Instr} {sa : SReg} (h : indexOperand i = some sa) (s : State) :
    ownCheck i s = checkIndex s sa := by
  cases i with
  | mwr | mrd | vbit =>
    cases h
    rfl
  | _ => cases h

theorem errorCause_of_ownCheck {i : Instr} {s : State} {c : ErrorCode} (h : ownCheck i s = some c) :
    errorCause c i s := by
  cases i with
  | setdim imm =>
    obtain ⟨hout, rfl⟩ := checkDimRange_eq_some.mp h
    exact ⟨imm, rfl, hout⟩
  | chex ch =>
    rcases Option.or_eq_some_iff.mp h with hhex | ⟨-, hlen⟩
    · obtain ⟨hno, rfl⟩ := checkHex_eq_some.mp hhex
      exact ⟨ch, rfl, hno⟩
    · obtain ⟨hfull, rfl⟩ := checkLen_eq_some.mp hlen
      exact ⟨ch, rfl, hfull⟩
  | mwr _ sa _ | mrd _ _ sa | vbit _ _ sa =>
    obtain ⟨hout, rfl⟩ := checkIndex_eq_some.mp h
    exact ⟨sa, rfl, hout⟩
  | _ => cases h

/-- R180: the error found has its cause. -/
theorem errorCause_of_firstError {i : Instr} {s : State} {c : ErrorCode} (h : firstError i s = some c) :
    errorCause c i s := by
  by_cases hill : errorCause .illegal i s
  · rw [firstError_of_illFormed hill] at h
    rwa [← Option.some.inj h]
  have hwf := wellFormed_of_not_illegal hill
  by_cases hdim : errorCause .noDim i s
  · obtain ⟨hneeds, hzero⟩ := hdim
    rw [firstError_of_noDim hwf hneeds hzero] at h
    exact Option.some.inj h ▸ ⟨hneeds, hzero⟩
  · rw [firstError_of_dim hwf hdim] at h
    exact errorCause_of_ownCheck h

/-- Of a command's own checks, E_LEN alone comes after another, E_HEX (R182). -/
theorem ownCheck_of_errorCause {i : Instr} {s : State} {c : ErrorCode} (hrank : 2 ≤ errorRank c)
    (hc : errorCause c i s) (hfirst : ∀ other, errorRank other < errorRank c → ¬ errorCause other i s) :
    ownCheck i s = some c := by
  cases c with
  | illegal | noDim => simp [errorRank] at hrank
  | dimRange =>
    obtain ⟨imm, rfl, hout⟩ := hc
    exact checkDimRange_of_outside hout
  | hex =>
    obtain ⟨ch, rfl, hno⟩ := hc
    rw [ownCheck, checkHex_of_none (hexVal_eq_none.mpr hno), Option.some_or]
  | idx =>
    obtain ⟨sa, hop, hout⟩ := hc
    rw [ownCheck_of_indexOperand hop, checkIndex_of_le hout]
  | len =>
    obtain ⟨ch, rfl, hfull⟩ := hc
    obtain ⟨d, hd⟩ : ∃ d, IsDigit ch d :=
      not_forall_not.mp fun hno => hfirst .hex (by decide) ⟨ch, rfl, hno⟩
    rw [ownCheck, checkHex_of_isDigit hd, Option.none_or, checkLen_of_eq hfull]

/-- R182: a cause is found when no cause of a higher priority holds. -/
theorem firstError_of_errorCause {i : Instr} {s : State} {c : ErrorCode} (hc : errorCause c i s)
    (hfirst : ∀ other, errorRank other < errorRank c → ¬ errorCause other i s) : firstError i s = some c := by
  cases c with
  | illegal => exact firstError_of_illFormed hc s
  | noDim =>
    obtain ⟨hneeds, hzero⟩ := hc
    exact firstError_of_noDim (wellFormed_of_not_illegal (hfirst .illegal (by decide))) hneeds hzero
  | dimRange | hex | idx | len =>
    rw [firstError_of_dim (wellFormed_of_not_illegal (hfirst .illegal (by decide))) (hfirst .noDim (by decide))]
    exact ownCheck_of_errorCause (by decide) hc hfirst

/-- R182: the error found is the one whose cause holds while no cause of a higher priority does. -/
theorem firstError_eq_some {i : Instr} {s : State} {c : ErrorCode} :
    firstError i s = some c ↔
      errorCause c i s ∧ ∀ other, errorRank other < errorRank c → ¬ errorCause other i s := by
  refine ⟨fun h => ⟨errorCause_of_firstError h, fun other hlt hother => ?_⟩,
    fun ⟨hc, hfirst⟩ => firstError_of_errorCause hc hfirst⟩
  obtain ⟨m, hm, hmin⟩ := (measure errorRank).wf.has_min {e | errorCause e i s} ⟨other, hother⟩
  have hfound : firstError i s = some m := firstError_of_errorCause hm fun e hlt he => hmin e he hlt
  obtain rfl : c = m := Option.some.inj (h.symm.trans hfound)
  exact hmin other hother hlt

/-- Settles O17, by `raises_iff_firstError` and `firstError_eq_some`. -/
theorem errorsFollowTheirPriority : Obligations.ErrorsFollowTheirPriority := by
  refine ⟨fun i s code herr => (raises_iff_firstError herr).trans firstError_eq_some, fun i s herr hno => ?_, rfl⟩
  have hnone : firstError i s = none := by
    rw [Option.eq_none_iff_forall_ne_some]
    intro c hc
    obtain ⟨hcause, -⟩ := firstError_eq_some.mp hc
    exact hno c hcause
  obtain ⟨b, hb⟩ := exec_eq_complete i s
  exact ⟨_, next_of_complete hb hnone, effectOf_err i b herr⟩

end Sys2Proof.Machine

/-!
PROOF. The statements about all words and all steps: decoding and encoding agree (30_encoding.md R71 to R83), every step
answers (70_reset_and_hazards.md R220) and keeps the invariant (10_state.md R27), and which inputs write which part of the
state (R21, R23, R25, R33).
-/

namespace Sys2Proof.Machine

/-! ## Decoding and encoding -/

/-- Every encoding is read back, or refused for its bank code (30_encoding.md R77, R80). -/
theorem decode_encode (i : Instr) : Laws.Encoding.Statement i := by
  cases i with
  | nop => exact Laws.Encoding.nop
  | srst => exact Laws.Encoding.srst
  | setdim imm => exact Laws.Encoding.setdim imm
  | sets sd imm => exact Laws.Encoding.sets sd imm
  | crst => exact Laws.Encoding.crst
  | chex ch => exact Laws.Encoding.chex ch
  | cdec vd => exact Laws.Encoding.cdec vd
  | mwr mb sa va => exact Laws.Encoding.mwr mb sa va
  | mrd vd mb sa => exact Laws.Encoding.mrd vd mb sa
  | mvc vd mb va => exact Laws.Encoding.mvc vd mb va
  | vmr vd va mb => exact Laws.Encoding.vmr vd va mb
  | vand vd va vb => exact Laws.Encoding.vand vd va vb
  | vxor vd va vb => exact Laws.Encoding.vxor vd va vb
  | vpop sd va => exact Laws.Encoding.vpop sd va
  | vbit sd va sa => exact Laws.Encoding.vbit sd va sa
  | vdiff sd va vb => exact Laws.Encoding.vdiff sd va vb

theorem decode_encode_of_wellFormed {i : Instr} (h : i.wellFormed = true) : decode (encode i) = .ok i := by
  rw [decode_encode i, if_pos h]

/-- R80: the decoder answers no command with bank code 3. -/
theorem wellFormed_of_decode {w : Word} {i : Instr} (hd : decode w = .ok i) : i.wellFormed = true := by
  by_contra hwf
  have henc := decode_encode i
  rw [Laws.Encoding.Statement, encode_of_decode hd, hd, if_neg hwf] at henc
  cases henc

/-- Settles O8, by `encode_of_decode` and `decode_encode`. -/
theorem decodeAndEncodeAgree : Obligations.DecodeAndEncodeAgree := by
  refine fun w i => ⟨fun hd => ⟨wellFormed_of_decode hd, encode_of_decode hd⟩, ?_⟩
  rintro ⟨hwf, rfl⟩
  exact decode_encode_of_wellFormed hwf

/-! ## What a step leaves -/

/-- Settles O14: with no input the step answers its own state. -/
theorem idleBlockKeepsItsState : Obligations.IdleBlockKeepsItsState := by
  intro s hin
  rw [step, handleNext, hin]

/-- Settles O18: the step handles the oldest input, whose handling leaves the rest waiting. -/
theorem everyStepAnswers : Obligations.EveryStepAnswers := by
  intro s
  cases hin : s.input with
  | nil => exact ⟨s, idleBlockKeepsItsState s hin, by rw [hin, List.tail_nil]⟩
  | cons e rest =>
    obtain ⟨t, ht⟩ := handleInput_isNext e (withInput rest s)
    refine ⟨t, (step_cons hin).trans ht, ?_⟩
    rw [handleInput_input ht, withInput_input, List.tail_cons]

/-- What handling one word can leave: the word counted and nothing else, an error taken, a reset, or the effect of the
command that the word spells (60_exceptions.md R183). -/
theorem commandStep_origin {w : Word} {s t : State} (h : commandStep w s = .next t) :
    t = countWord s ∨
    (∃ c, t = countWord (errorEntry c w s)) ∨
    (decode w = .ok .srst ∧ t = resetBlock s) ∨
    (∃ i b, decode w = .ok i ∧ i ≠ .srst ∧ admits i s ∧ t = countWord (effectOf i b s)) := by
  rcases commandStep_cases h with ⟨-, -, rfl⟩ | ⟨-, rfl, rfl⟩ | ⟨-, -, rfl⟩ | ⟨-, hd, rfl⟩ |
    ⟨-, i, u, hd, hi, hu, rfl⟩
  · exact .inl rfl
  · exact .inr (.inr (.inl ⟨decode_eq_srst.mpr rfl, rfl⟩))
  · exact .inr (.inl ⟨.illegal, rfl⟩)
  · exact .inr (.inr (.inl ⟨hd, rfl⟩))
  · rcases exec_cases hu with ⟨hadm, b, rfl⟩ | ⟨-, c, rfl⟩
    · exact .inr (.inr (.inr ⟨i, b, hd, hi, hadm, rfl⟩))
    · exact .inr (.inl ⟨c, by rw [encode_of_decode hd]⟩)

/-! ## The invariant -/

theorem blockInv_withInput {s : State} (h : BlockInv s) (l : List HostInput) : BlockInv (withInput l s) := h

theorem blockInv_countWord {s : State} (h : BlockInv s) : BlockInv (countWord s) := h

theorem blockInv_errorEntry {s : State} (h : BlockInv s) (c : ErrorCode) (w : Word) :
    BlockInv (errorEntry c w s) := by
  obtain ⟨hsizes, hvectors, hrows, hcodec, -⟩ := h
  exact ⟨hsizes, hvectors, hrows, hcodec, rfl, fun herr => by cases herr⟩

/-- Registers and rows of 0 and a cleared codec are in the invariant's range for every dimension. -/
theorem blockInv_clearCase {s : State} (hsizes : SizesInRange s) (herrors : ErrorFieldsAgree s) :
    BlockInv (clearCase s) := by
  refine ⟨hsizes, fun i => ?_, ⟨wf_empty, ?_, ?_, ?_⟩, ⟨Nat.zero_le _, Nat.two_pow_pos _⟩, herrors⟩
  · rw [readV_clearCase]
    exact Nat.two_pow_pos _
  all_goals exact List.forall_mem_nil _

theorem blockInv_resetBlock {s : State} (hlow : 1 ≤ s.nmax) (hhigh : s.nmax ≤ Config.nmaxLimit) :
    BlockInv (resetBlock s) :=
  blockInv_clearCase (s := resetBlock s) ⟨hlow, hhigh, Nat.zero_le _⟩ ⟨rfl, fun _ => ⟨rfl, rfl⟩⟩

/-- Settles O3: a reset block is a cleared one, with DIM = 0. -/
theorem resetMeetsInvariant : Obligations.ResetMeetsInvariant :=
  ⟨fun n hlow hhigh => blockInv_resetBlock (s := State.resetFor n) hlow hhigh,
    blockInv_resetBlock (s := State.reset) (Nat.le_add_left 1 _) Config.nmaxLessOne.isLt⟩

theorem bankCanonical_writeRow {s : State} {rows : List (Nat × Nat)} (hrows : BankCanonical s rows) {r : Nat}
    (hr : r < s.dim) (x : Nat) : BankCanonical s (writeRow rows r (maskBits s.dim x)) := by
  intro row hrow
  rcases mem_writeRow hrow with hrow | rfl
  · exact hrows row hrow
  · exact ⟨hr, maskBits_lt _ _⟩

/-- R122, R127: a digit is appended with no bit lost where the accumulator has room for it. -/
theorem appendDigit_of_room {nmax acc d k : Nat} (hd : d < 16) (hacc : acc < 2 ^ (4 * k))
    (hroom : k + 1 ≤ maxDig nmax) : appendDigit nmax acc d = 16 * acc + d :=
  appendDigit_eq hd ((appendDigit_bound hd hacc).trans_le (Nat.pow_le_pow_right (by omega) (by omega)))

section
variable {s : State} (h : BlockInv s)
include h

theorem blockInv_writeV (vd : VReg) {x : Nat} (hx : x < 2 ^ s.dim) : BlockInv (writeV s vd x) := by
  obtain ⟨hsizes, hvectors, hrest⟩ := h
  refine ⟨hsizes, fun i => ?_, hrest⟩
  rw [readV_writeV, writeV_dim]
  split
  · exact hx
  · exact hvectors i

theorem blockInv_clearCodec : BlockInv (clearCodec s) := by
  obtain ⟨hsizes, hvectors, hrows, -, herrors⟩ := h
  exact ⟨hsizes, hvectors, hrows, ⟨Nat.zero_le _, Nat.two_pow_pos _⟩, herrors⟩

theorem blockInv_matWrite (b : Bank) {r : Nat} (hr : r < s.dim) (x : Nat) : BlockInv (matWrite s b r x) := by
  obtain ⟨hsizes, hvectors, ⟨hwf, hA, hB, hC⟩, hrest⟩ := h
  refine ⟨hsizes, hvectors, ⟨wf_matWrite hwf b r x, ?_⟩, hrest⟩
  cases b with
  | bankA => exact ⟨bankCanonical_writeRow hA hr x, hB, hC⟩
  | bankB => exact ⟨hA, bankCanonical_writeRow hB hr x, hC⟩
  | bankC => exact ⟨hA, hB, bankCanonical_writeRow hC hr x⟩

theorem blockInv_chex {ch : BitVec 8} {d : Nat} (hd : hexVal ch = some d) (hroom : s.ccnt ≠ maxDig s.dim) :
    BlockInv { s with cacc := appendDigit s.nmax s.cacc ((hexVal ch).getD 0), ccnt := s.ccnt + 1 } := by
  obtain ⟨⟨hlow, hhigh, hsize⟩, hvectors, hrows, ⟨hcnt, hacc⟩, herrors⟩ := h
  have hnext : s.ccnt + 1 ≤ maxDig s.dim := hcnt.lt_of_ne hroom
  rw [hd, Option.getD_some, appendDigit_of_room (hexVal_lt hd) hacc (hnext.trans (maxDig_mono hsize))]
  exact ⟨⟨hlow, hhigh, hsize⟩, hvectors, hrows, ⟨hnext, appendDigit_bound (hexVal_lt hd) hacc⟩, herrors⟩

/-- R27: a command that its checks let through keeps the invariant. -/
theorem blockInv_effectOf {i : Instr} (hadm : admits i s) (b : Bank) : BlockInv (effectOf i b s) := by
  obtain ⟨-, -, hown⟩ := hadm
  have ⟨hsizes, hvectors, hrows, _, herrors⟩ := h
  obtain ⟨hlow, hhigh, -⟩ := hsizes
  cases i with
  | nop | sets | vpop | vbit | vdiff => exact h
  | srst => exact blockInv_resetBlock hlow hhigh
  | setdim imm =>
    obtain ⟨-, himm⟩ := hown
    exact blockInv_clearCase (s := { s with dim := imm.toNat }) ⟨hlow, hhigh, himm⟩ herrors
  | crst => exact blockInv_clearCodec h
  | chex ch =>
    obtain ⟨⟨d, hd⟩, hroom⟩ := hown
    exact blockInv_chex h hd hroom
  | cdec vd => exact blockInv_clearCodec (blockInv_writeV h vd (decodeDigits_lt _ _))
  | mwr mb sa va => exact blockInv_matWrite h b hown _
  | mrd vd mb sa => exact blockInv_writeV h vd (matRead_canonical hrows b _).1
  | mvc vd mb va => exact blockInv_writeV h vd (matVec_lt _ _ _ _)
  | vmr vd va mb => exact blockInv_writeV h vd (vecMat_lt (fun r => (matRead_canonical hrows b r).1) _)
  | vand vd va vb => exact blockInv_writeV h vd (Nat.and_lt_two_pow _ (hvectors vb))
  | vxor vd va vb => exact blockInv_writeV h vd (Nat.xor_lt_two_pow (hvectors va) (hvectors vb))

theorem blockInv_commandStep {w : Word} {t : State} (hstep : commandStep w s = .next t) : BlockInv t := by
  have ⟨⟨hlow, hhigh, _⟩, _⟩ := h
  rcases commandStep_origin hstep with rfl | ⟨c, rfl⟩ | ⟨-, rfl⟩ | ⟨i, b, -, -, hadm, rfl⟩
  · exact blockInv_countWord h
  · exact blockInv_countWord (blockInv_errorEntry h c w)
  · exact blockInv_resetBlock hlow hhigh
  · exact blockInv_countWord (blockInv_effectOf h hadm b)

end

/-- Settles O4: an idle step keeps the state, the reset input resets it, and a word is handled by
`blockInv_commandStep`. -/
theorem everyStepKeepsInvariant : Obligations.EveryStepKeepsInvariant := by
  intro s t h hstep
  rcases step_cases hstep with ⟨-, rfl⟩ | ⟨w, rest, -, hw⟩ | ⟨rest, -, rfl⟩
  · exact h
  · exact blockInv_commandStep (blockInv_withInput h rest) hw
  · obtain ⟨⟨hlow, hhigh, -⟩, -⟩ := h
    exact blockInv_resetBlock hlow hhigh

/-! ## What writes a part of the state -/

/-- If a step changes a part of the state that counting, the waiting inputs and error entry leave alone, then its input
was the reset input, or the word of SRST or of a command whose effect changes that part. -/
theorem step_writer {α : Type} {f : State → α} {writes : Instr → Prop} (hcount : ∀ u, f (countWord u) = f u)
    (hinput : ∀ l u, f (withInput l u) = f u) (herror : ∀ c w u, f (errorEntry c w u) = f u)
    (hsrst : writes .srst) (heffect : ∀ i b u, f (effectOf i b u) ≠ f u → writes i)
    {s t : State} (h : step s = .next t) (hne : f t ≠ f s) :
    (∃ rest, s.input = .reset :: rest) ∨
    (∃ w rest i, s.input = .submit w :: rest ∧ decode w = .ok i ∧ writes i) := by
  rcases step_cases h with ⟨-, rfl⟩ | ⟨w, rest, hin, hw⟩ | ⟨rest, hin, -⟩
  · exact absurd rfl hne
  · refine .inr ?_
    change commandStep w (withInput rest s) = .next t at hw
    rcases commandStep_origin hw with rfl | ⟨c, rfl⟩ | ⟨hd, rfl⟩ | ⟨i, b, hd, -, -, rfl⟩
    · exact absurd ((hcount _).trans (hinput rest s)) hne
    · exact absurd ((hcount _).trans ((herror c w _).trans (hinput rest s))) hne
    · exact ⟨w, rest, .srst, hin, hd, hsrst⟩
    · rw [hcount, ← hinput rest s] at hne
      exact ⟨w, rest, i, hin, hd, heffect i b _ hne⟩
  · exact .inl ⟨rest, hin⟩

/-- Settles O46, by `step_writer`. -/
theorem onlySetdimAndResetWriteDim : Obligations.OnlySetdimAndResetWriteDim := by
  refine fun s t => step_writer (f := State.dim) (fun _ => rfl) (fun _ _ => rfl) (fun _ _ _ => rfl) (.inl rfl) ?_
  intro i b u hne
  cases i with
  | srst => exact .inl rfl
  | setdim imm => exact .inr ⟨imm, rfl⟩
  | _ => exact absurd rfl hne

/-- Settles O47, by `step_writer`. -/
theorem onlyMwrSetdimAndResetWriteRows : Obligations.OnlyMwrSetdimAndResetWriteRows := by
  refine fun s t b r => step_writer (f := fun u => matRead u.mem b r) (fun _ => rfl) (fun _ _ => rfl)
    (fun _ _ _ => rfl) (.inl rfl) ?_
  intro i b' u hne
  cases i with
  | srst => exact .inl rfl
  | setdim imm => exact .inr (.inl ⟨imm, rfl⟩)
  | mwr mb sa va => exact .inr (.inr ⟨mb, sa, va, rfl⟩)
  | _ => exact absurd rfl hne

/-- Settles O48, by `step_writer` for each flag. -/
theorem flagsHaveTheirWritersOnly : Obligations.FlagsHaveTheirWritersOnly := by
  refine fun s t h =>
    ⟨step_writer (f := State.z) (fun _ => rfl) (fun _ _ => rfl) (fun _ _ _ => rfl) (.inl rfl) ?_ h,
      step_writer (f := State.p) (fun _ => rfl) (fun _ _ => rfl) (fun _ _ _ => rfl) (.inl rfl) ?_ h⟩
  · intro i b u hne
    cases i with
    | srst => exact .inl rfl
    | vpop sd va => exact .inr (.inl ⟨sd, va, rfl⟩)
    | vdiff sd va vb => exact .inr (.inr ⟨sd, va, vb, rfl⟩)
    | _ => exact absurd rfl hne
  · intro i b u hne
    cases i with
    | srst => exact .inl rfl
    | vpop sd va => exact .inr ⟨sd, va, rfl⟩
    | _ => exact absurd rfl hne

/-- R33, R36: no command writes NMAXR, and SRST keeps it. -/
theorem effectOf_nmax (i : Instr) (b : Bank) (s : State) : (effectOf i b s).nmax = s.nmax := by
  cases i <;> rfl

theorem commandStep_nmax {w : Word} {s t : State} (h : commandStep w s = .next t) : t.nmax = s.nmax := by
  rcases commandStep_origin h with rfl | ⟨c, rfl⟩ | ⟨-, rfl⟩ | ⟨i, b, -, -, -, rfl⟩
  · rfl
  · rfl
  · rfl
  · rw [countWord_nmax, effectOf_nmax]

/-- Settles O49: no effect writes NMAXR, and reset keeps it. -/
theorem nmaxNeverChanges : Obligations.NmaxNeverChanges := by
  intro s t h
  rcases step_cases h with ⟨-, rfl⟩ | ⟨w, rest, -, hw⟩ | ⟨rest, -, rfl⟩
  · rfl
  · exact commandStep_nmax (s := withInput rest s) hw
  · rfl

/-! ## Reset and the halted state -/

/-- R101, R186: the word of SRST resets the block, halted or not, and is not counted. -/
theorem commandStep_srst (s : State) : commandStep srstWord s = .next (resetBlock s) := by
  unfold commandStep
  split
  · rw [haltedStep, if_pos rfl, exec_srst]
  · rw [runningStep, decode_eq_srst.mpr rfl, exec_srst]

/-- Settles O2: SRST's command, its word and the reset input all give `resetBlock`. -/
theorem srstAndHardwareResetAgree : Obligations.SrstAndHardwareResetAgree := by
  obtain ⟨hspelt, hillegal⟩ := spelled_and_illegal_of_row
    (row := ⟨"SRST", 0x04000000, 0xFFFFFFFF, false⟩) (by decide)
  exact ⟨hspelt, hillegal, exec_srst, fun _ _ hin => (step_submit hin).trans (commandStep_srst _),
    fun _ _ hin => step_cons hin⟩

/-- Settles O13: a halted block only counts a word that is not SRST's. -/
theorem onlyResetLeavesTheHaltedState : Obligations.OnlyResetLeavesTheHaltedState := by
  intro s t herr h
  rcases step_cases h with ⟨-, rfl⟩ | ⟨w, rest, hin, hw⟩ | ⟨rest, hin, rfl⟩
  · exact .inl ⟨rfl, rfl, rfl, rfl⟩
  · by_cases hsrst : w = srstWord
    · subst hsrst
      cases (commandStep_srst _).symm.trans hw
      exact .inr ⟨.inr hin, rfl⟩
    · cases (step_of_dropped hin herr hsrst).symm.trans h
      exact .inl ⟨rfl, rfl, rfl, rfl⟩
  · exact .inr ⟨.inl hin, rfl⟩

end Sys2Proof.Machine

/-!
PROOF. The statements about the row space: equal contents are equal data (20_memory.md R50), MWR (42_gf2.md R141), indices
that are refused (43_bitvector.md R164), and commands that may be repeated (20_memory.md R59).
-/

namespace Sys2Proof.Machine

/-! ## Equal contents are equal data -/

theorem rowsWf_cons {low k x : Nat} {rest : List (Nat × Nat)} :
    rowsWf low ((k, x) :: rest) = true ↔ low ≤ k ∧ x ≠ 0 ∧ rowsWf (k + 1) rest = true := by
  simp only [rowsWf, Bool.and_eq_true, decide_eq_true_eq, bne_iff_ne, and_assoc]

theorem readRow_cons_self (k x : Nat) (rest : List (Nat × Nat)) : readRow ((k, x) :: rest) k = x := by
  rw [readRow, if_pos rfl]

theorem readRow_cons_ne {k r : Nat} (x : Nat) (rest : List (Nat × Nat)) (h : k ≠ r) :
    readRow ((k, x) :: rest) r = readRow rest r := by
  rw [readRow, if_neg h]

/-- A canonical list whose first row is `k` reads other than 0 there, so a canonical list that reads alike does not
begin above `k`. -/
theorem head_le_of_readRow_eq {k k' x x' low low' : Nat} {rest rest' : List (Nat × Nat)}
    (h : rowsWf low ((k, x) :: rest) = true) (h' : rowsWf low' ((k', x') :: rest') = true)
    (heq : ∀ r, readRow ((k, x) :: rest) r = readRow ((k', x') :: rest') r) : k' ≤ k := by
  by_contra hlt
  obtain ⟨-, hx, -⟩ := rowsWf_cons.mp h
  obtain ⟨-, hx', htail'⟩ := rowsWf_cons.mp h'
  have hzero : readRow ((k', x') :: rest') k = 0 :=
    readRow_eq_zero (rowsWf_cons.mpr ⟨le_refl k', hx', htail'⟩) (not_le.mp hlt)
  exact hx (by rw [← hzero, ← heq, readRow_cons_self])

/-- Two canonical lists that read alike are equal: they begin with the same row, and their rests read alike. -/
theorem rows_eq_of_readRow_eq {rows rows' : List (Nat × Nat)} {low low' : Nat} (h : rowsWf low rows = true)
    (h' : rowsWf low' rows' = true) (heq : ∀ r, readRow rows r = readRow rows' r) : rows = rows' := by
  induction rows generalizing rows' low low' with
  | nil =>
    cases rows' with
    | nil => rfl
    | cons p' rest' =>
      obtain ⟨-, hx', -⟩ := rowsWf_cons.mp h'
      exact absurd ((readRow_cons_self _ _ _).symm.trans (heq p'.1).symm) hx'
  | cons p rest ih =>
    obtain ⟨k, x⟩ := p
    obtain ⟨-, hx, htail⟩ := rowsWf_cons.mp h
    cases rows' with
    | nil => exact absurd ((readRow_cons_self _ _ _).symm.trans (heq k)) hx
    | cons p' rest' =>
      obtain ⟨k', x'⟩ := p'
      obtain ⟨-, -, htail'⟩ := rowsWf_cons.mp h'
      obtain rfl : k = k' :=
        le_antisymm (head_le_of_readRow_eq h' h fun r => (heq r).symm) (head_le_of_readRow_eq h h' heq)
      have hhead : x = x' := by simpa only [readRow_cons_self] using heq k
      have hrest : rest = rest' := by
        refine ih htail htail' fun r => ?_
        by_cases hr : k = r
        · rw [readRow_eq_zero htail (by omega), readRow_eq_zero htail' (by omega)]
        · simpa only [readRow_cons_ne _ _ hr] using heq r
      rw [hhead, hrest]

/-- Settles O55, by `rows_eq_of_readRow_eq` for each bank. -/
theorem equalRowsAreEqualData : Obligations.EqualRowsAreEqualData := by
  rintro ⟨A, B, C⟩ ⟨A', B', C'⟩ h h' heq
  simp only [Memory.wf, Bool.and_eq_true] at h h'
  obtain ⟨⟨hA, hB⟩, hC⟩ := h
  obtain ⟨⟨hA', hB'⟩, hC'⟩ := h'
  rw [Memory.mk.injEq]
  exact ⟨rows_eq_of_readRow_eq hA hA' (heq .bankA), rows_eq_of_readRow_eq hB hB' (heq .bankB),
    rows_eq_of_readRow_eq hC hC' (heq .bankC)⟩

/-! ## Indices that are refused -/

/-- R51, R182: with a dimension, a well-formed command whose index is not below it takes E_IDX. -/
theorem raises_idx {i : Instr} {sa : SReg} {s : State} (hwf : i.wellFormed = true)
    (hop : indexOperand i = some sa) (hdim : s.dim ≠ 0) (hidx : s.dim ≤ readIndex s sa) : Raises i .idx s := by
  refine raises_of_firstError ?_
  rw [firstError_of_dim hwf fun ⟨_, hzero⟩ => hdim hzero, ownCheck_of_indexOperand hop, checkIndex_of_le hidx]

theorem namesBank_codeOf (b : Bank) : namesBank (codeOf b) = true := by
  cases b <;> rfl

/-- Settles O45: the not-found value is above every dimension that the block can hold. -/
theorem notFoundIsNoIndex : Obligations.NotFoundIsNoIndex := by
  intro s b v sd sa hinv hdim hnot
  obtain ⟨⟨-, hhigh, hsize⟩, -⟩ := hinv
  have hidx : s.dim ≤ readIndex s sa := by
    rw [readIndex, hnot]
    exact (hsize.trans hhigh).trans (by decide)
  exact ⟨raises_idx (namesBank_codeOf b) rfl hdim hidx, raises_idx (namesBank_codeOf b) rfl hdim hidx,
    raises_idx rfl rfl hdim hidx⟩

/-! ## MWR -/

theorem exec_mwr_of_index (b : Bank) {sa : SReg} (va : VReg) {s : State} (h : readIndex s sa < s.dim) :
    exec (.mwr (codeOf b) sa va) s = .next (matWrite s b (readIndex s sa) (readV s va)) := by
  rw [exec_mwr, (checkDim_eq_none s).mpr (by omega), (checkIndex_eq_none s sa).mpr h, Option.or_none, complete_none]

/-- Settles O31: the checks stand in the order of R182, and an index below DIM writes its row, cut to DIM bits. -/
theorem mwrWritesARow : Obligations.MwrWritesARow := by
  obtain ⟨hspelt, hillegal⟩ := spelled_and_illegal_of_row
    (row := ⟨"MWR", 0x20000000, 0xFF8E67FF, true⟩) (by decide)
  refine ⟨hspelt, hillegal, fun _ _ _ => raises_illegal_of_illFormed rfl,
    fun b sa va s hdim => raises_of_firstError (firstError_of_noDim (namesBank_codeOf b) rfl hdim),
    fun b sa va s hdim hidx => raises_idx (namesBank_codeOf b) rfl hdim hidx, fun b sa va s hwf hidx => ?_⟩
  refine ⟨_, exec_mwr_of_index b va hidx, fun j => ?_, onlyRowChanges_matWrite s b _ _, wf_matWrite hwf b _ _⟩
  rw [matWrite_mem, ← readIndex, matRead_storeRow_self hwf, testBit_maskBits]

/-! ## Repeated commands -/

theorem writeV_writeV (s : State) (i : VReg) (x y : Nat) : writeV (writeV s i x) i y = writeV s i y := by
  simp only [writeV, Vector.set_set]

theorem writeS_writeS (s : State) (i : SReg) (x y : Word) : writeS (writeS s i x) i y = writeS s i y := by
  simp only [writeS, Vector.set_set]

/-- Writing a row of a canonical row space twice leaves the same data as writing it once: it reads alike. -/
theorem storeRow_storeRow {m : Memory} (h : m.wf = true) (b : Bank) (r x : Nat) :
    storeRow (storeRow m b r x) b r x = storeRow m b r x := by
  have hwf := wf_storeRow h b r x
  refine equalRowsAreEqualData _ _ (wf_storeRow hwf b r x) hwf fun b' r' => ?_
  by_cases hrow : b' = b ∧ r' = r
  · obtain ⟨rfl, rfl⟩ := hrow
    rw [matRead_storeRow_self hwf, matRead_storeRow_self h]
  · rw [matRead_storeRow_ne _ _ hrow]

theorem matWrite_matWrite {s : State} (h : s.mem.wf = true) (b : Bank) (r x : Nat) :
    matWrite (matWrite s b r x) b r x = matWrite s b r x := by
  simp only [matWrite, storeRow_storeRow h]

/-- The two writes of VPOP (R162), made twice. -/
theorem countResult_twice (s : State) (sd : SReg) (x : Word) (count : Nat) :
    writeCountFlags (writeS (writeCountFlags (writeS s sd x) count) sd x) count =
      writeCountFlags (writeS s sd x) count := by
  simp only [writeCountFlags, writeS, Vector.set_set]

/-- The two writes of VDIFF (R164), made twice. -/
theorem scanResult_twice (s : State) (sd : SReg) (x : Word) (zero : Bool) :
    writeZ (writeS (writeZ (writeS s sd x) zero) sd x) zero = writeZ (writeS s sd x) zero := by
  simp only [writeZ, writeS, Vector.set_set]

/-- R59: a command whose destination is no source finds the same operands again, and writes the same once more. -/
theorem effectOf_effectOf {i : Instr} (hrep : repeatable i = true) {s : State} (hwf : s.mem.wf = true) (b : Bank) :
    effectOf i b (effectOf i b s) = effectOf i b s := by
  cases i with
  | chex | cdec => cases hrep
  | nop | srst | setdim | crst => rfl
  | mwr mb sa va => exact matWrite_matWrite hwf b _ _
  | mrd vd mb sa => exact writeV_writeV s vd _ _
  | mvc vd _ va | vmr vd va _ =>
    have hva : va ≠ vd := (bne_iff_ne.mp hrep).symm
    simp only [effectOf, readV_writeV_ne _ _ hva, writeV_mem, writeV_dim, writeV_writeV]
  | vand vd va vb | vxor vd va vb =>
    obtain ⟨hva, hvb⟩ : vd ≠ va ∧ vd ≠ vb := by simpa [repeatable] using hrep
    simp only [effectOf, readV_writeV_ne _ _ hva.symm, readV_writeV_ne _ _ hvb.symm, writeV_writeV]
  | sets sd imm => exact writeS_writeS s sd _ _
  | vpop sd va => exact countResult_twice s sd _ _
  | vbit sd va sa =>
    have hsa : sa ≠ sd := (bne_iff_ne.mp hrep).symm
    simp only [effectOf, readIndex, readS_writeS_ne _ _ hsa, readV_writeS, writeS_writeS]
  | vdiff sd va vb => exact scanResult_twice s sd _ _

theorem checkIndex_congr {s t : State} {sa : SReg} (hdim : t.dim = s.dim) (hreg : readS t sa = readS s sa) :
    checkIndex t sa = checkIndex s sa := by
  rw [checkIndex, checkIndex, readIndex, readIndex, hdim, hreg]

/-- R59: the checks of such a command find after it what they found before. -/
theorem firstError_effectOf {i : Instr} (hrep : repeatable i = true) (s : State) (b : Bank) :
    firstError i (effectOf i b s) = firstError i s := by
  cases i with
  | chex | cdec => cases hrep
  | vbit sd va sa =>
    have hsa : sa ≠ sd := (bne_iff_ne.mp hrep).symm
    have hown : ownCheck (.vbit sd va sa) (effectOf (.vbit sd va sa) b s) = ownCheck (.vbit sd va sa) s :=
      checkIndex_congr rfl (readS_writeS_ne s _ hsa)
    rw [firstError, hown]
    rfl
  | _ => rfl

/-- The bank of a well-formed command is fixed by the command, whatever the state (compare `exec_eq_complete`). -/
theorem exec_eq_complete_of_wellFormed {i : Instr} (h : i.wellFormed = true) :
    ∃ b, ∀ s, exec i s = complete i (firstError i s) s (effectOf i b s) := by
  cases i with
  | mwr mb | mrd _ mb | mvc _ mb | vmr _ _ mb =>
    obtain ⟨b, hb⟩ := bankOf_of_namesBank h
    refine ⟨b, fun s => (withBank_some hb _ _ _).trans ?_⟩
    simp [firstError, h, needsDim, ownCheck, effectOf]
  | _ =>
    refine ⟨.bankA, fun s => ?_⟩
    obtain ⟨b, hb⟩ := exec_eq_complete _ s
    exact hb

/-! The count and the waiting inputs are no operands: a command does the same with others. -/

/-- The state with another count and other inputs waiting. -/
def recount (c : Word) (l : List HostInput) (s : State) : State := { s with cmdcnt := c, input := l }

theorem firstError_recount (i : Instr) (c : Word) (l : List HostInput) (s : State) :
    firstError i (recount c l s) = firstError i s := by
  cases i <;> rfl

theorem effectOf_recount {i : Instr} (hi : i ≠ .srst) (b : Bank) (c : Word) (l : List HostInput) (s : State) :
    effectOf i b (recount c l s) = recount c l (effectOf i b s) := by
  cases i with
  | srst => exact absurd rfl hi
  | _ => rfl

/-- R59: a repeatable command that completed completes again, and then leaves what it left. -/
theorem exec_recount_of_exec {i : Instr} {s t : State} (hi : i ≠ .srst) (hwell : i.wellFormed = true)
    (hrep : repeatable i = true) (hwf : s.mem.wf = true) (h : exec i s = .next t)
    (ht : t.err = false) (c : Word) (l : List HostInput) :
    exec i (recount c l t) = .next (recount c l t) := by
  obtain ⟨b, hb⟩ := exec_eq_complete_of_wellFormed hwell
  rw [hb] at h
  rcases complete_cases h with ⟨hnone, rfl⟩ | ⟨code, -, rfl⟩
  · rw [hb, firstError_recount, firstError_effectOf hrep, hnone, complete_none, effectOf_recount hi,
      effectOf_effectOf hrep hwf]
  · cases ht

/-- Settles O20: a reset block is reset again; a halted one drops the word the second time; a running one repeats the
command by `exec_recount_of_exec`. -/
theorem repeatingACommandChangesNothing : Obligations.RepeatingACommandChangesNothing := by
  intro s t u w rest i hinv hin herr hd hrep ht hu
  obtain ⟨-, -, ⟨hwf, -⟩, -⟩ := hinv
  have htin : t.input = .submit w :: rest := handleInput_input ((step_cons hin).symm.trans ht)
  by_cases hi : i = .srst
  · obtain rfl : w = srstWord := decode_eq_srst.mp (hi ▸ hd)
    rw [step_submit hin, commandStep_srst] at ht
    rw [step_submit htin, commandStep_srst] at hu
    cases ht
    cases hu
    rfl
  · obtain ⟨v, hv⟩ := exec_isNext i (withInput (.submit w :: rest) s)
    rw [step_of_running hin herr, runningStep_of_decode hd hi, hv, thenCount] at ht
    cases ht
    cases hverr : v.err with
    | true =>
      have hw : w ≠ srstWord := fun e => hi (by simpa [decode_eq_srst.mpr e] using hd.symm)
      cases (step_of_dropped htin hverr hw).symm.trans hu
      rfl
    | false =>
      have hagain : exec i (withInput rest (countWord v)) = .next (withInput rest (countWord v)) :=
        exec_recount_of_exec (s := withInput (.submit w :: rest) s) hi (wellFormed_of_decode hd) hrep hwf hv hverr
          _ rest
      rw [step_of_running htin hverr, runningStep_of_decode hd hi, hagain, thenCount] at hu
      cases hu
      rfl

end Sys2Proof.Machine

/-!
PROOF. The statements about row-strings (41_codec.md R125 to R127).
-/

namespace Sys2Proof.Machine

/-- Settles O27, by `testBit_decodeDigits` and `four_maxDig`. -/
theorem rowStringsAreWrittenLeftToRight : Obligations.RowStringsAreWrittenLeftToRight := by
  intro n acc c hc
  have hfour : 4 * ((n + 3) / 4) = n + padShift n := four_maxDig n
  have hbit : revIndex n c + padShift n = 4 * ((n + 3) / 4) - 1 - c := by
    rw [hfour, revIndex]
    omega
  rw [component, testBit_decodeDigits, decide_eq_true (revIndex_lt hc), Bool.true_and, hbit]

/-- Each digit adds 4 bits at most to the value (R127). -/
theorem valueFrom_lt {k acc : Nat} {digits : List Nat} (hdigits : ∀ d ∈ digits, d < 16) (hacc : acc < 2 ^ (4 * k)) :
    valueFrom acc digits < 2 ^ (4 * (k + digits.length)) := by
  induction digits generalizing k acc with
  | nil => exact hacc
  | cons d rest ih =>
    obtain ⟨hd, hrest⟩ := List.forall_mem_cons.mp hdigits
    rw [valueFrom_cons, List.length_cons, ← Nat.add_assoc, Nat.add_right_comm]
    exact ih hrest (appendDigit_bound hd hacc)

/-- R127: digits that there is room for are appended with no bit lost. -/
theorem foldl_appendDigit {nmax k acc : Nat} {digits : List Nat} (hdigits : ∀ d ∈ digits, d < 16)
    (hacc : acc < 2 ^ (4 * k)) (hroom : k + digits.length ≤ maxDig nmax) :
    digits.foldl (appendDigit nmax) acc = valueFrom acc digits := by
  induction digits generalizing k acc with
  | nil => rfl
  | cons d rest ih =>
    obtain ⟨hd, hrest⟩ := List.forall_mem_cons.mp hdigits
    rw [List.length_cons] at hroom
    rw [List.foldl_cons, appendDigit_of_room hd hacc (by omega), valueFrom_cons]
    exact ih hrest (appendDigit_bound hd hacc) (by omega)

section
variable {n : Nat} {digits : List Nat} (hdigits : ∀ d ∈ digits, d < 16) (hlen : digits.length ≤ maxDig n)
include hdigits hlen

theorem rowStringValue_lt : rowStringValue digits < 2 ^ (n + padShift n) := by
  have hbound : valueFrom 0 digits < 2 ^ (4 * (0 + digits.length)) := valueFrom_lt hdigits (by decide)
  rw [← valueFrom_zero, ← four_maxDig]
  exact hbound.trans_le (Nat.pow_le_pow_right (by decide) (by omega))

theorem accumulateDigits_eq {nmax : Nat} (hsize : n ≤ nmax) : accumulateDigits nmax digits = rowStringValue digits := by
  have hroom : 0 + digits.length ≤ maxDig nmax := by
    rw [Nat.zero_add]
    exact hlen.trans (maxDig_mono hsize)
  exact foldl_appendDigit hdigits (by decide) hroom

end

/-- Settles O28: the accumulator holds the value of the row-string, which digits 0 before it do not change. -/
theorem digitsAccumulateWithoutLoss : Obligations.DigitsAccumulateWithoutLoss := by
  refine fun nmax n digits hsize hdigits hlen => ⟨accumulateDigits_eq hdigits hlen hsize, four_maxDig n,
    rowStringValue_lt hdigits hlen, fun zeros hzeros => ?_⟩
  have hpadded : ∀ d ∈ List.replicate zeros 0 ++ digits, d < 16 :=
    List.forall_mem_append.mpr ⟨fun d hd => by rw [List.eq_of_mem_replicate hd]; decide, hdigits⟩
  have hpaddedLen : (List.replicate zeros 0 ++ digits).length ≤ maxDig n := by
    rwa [List.length_append, List.length_replicate]
  rw [accumulateDigits_eq hpadded hpaddedLen hsize, rowStringValue_replicate_append,
    accumulateDigits_eq hdigits hlen hsize]

/-- Settles O29, by `sourceDecode_eq`: the accumulator holds the value of the row-string. -/
theorem codecMatchesTheSourceAlgorithm : Obligations.CodecMatchesTheSourceAlgorithm := by
  intro nmax n width digits _ hsize hdigits hlen hpos heven
  rw [accumulateDigits_eq hdigits hlen hsize, sourceDecode_eq hpos heven n hdigits]

end Sys2Proof.Machine

/-!
PROOF. The statements about the products of 42_gf2.md: VMR's corner cases (R146), and the two products agree, so that the
localizer finds what a probe finds (70_reset_and_hazards.md R216) and exact products pass every probe (W5).
-/

namespace Sys2Proof.Machine

/-! ## VMR of the zero vector and of a unit vector -/

theorem accumulateRows_zero (m : Memory) (b : Bank) (n k : Nat) : accumulateRows m b n 0 k = 0 := by
  induction k with
  | zero => rfl
  | succ k ih => rw [accumulateRows, Nat.zero_testBit, if_neg Bool.false_ne_true, ih]

/-- R146: only the round of the one set bit adds a row. -/
theorem accumulateRows_two_pow (m : Memory) (b : Bank) (n i k : Nat) :
    accumulateRows m b n (2 ^ i) k = if i < k then matRead m b (revIndex n i) else 0 := by
  induction k with
  | zero => rfl
  | succ k ih =>
    rw [accumulateRows, ih, Nat.testBit_two_pow]
    rcases lt_trichotomy i k with h | rfl | h
    · simp [h.ne, h, h.trans (Nat.lt_succ_self k)]
    · simp
    · simp [h.ne', h.not_gt, Nat.not_lt.mpr (Nat.succ_le_of_lt h)]

/-- Settles O35, by `accumulateRows_zero` and `accumulateRows_two_pow`. -/
theorem vmrOfAUnitVectorIsARow : Obligations.VmrOfAUnitVectorIsARow := by
  refine fun vd va b s hdim => ⟨fun hzero => ⟨_, exec_vmr_of_dim vd va b hdim, ?_⟩,
    fun i hi hunit => ⟨_, exec_vmr_of_dim vd va b hdim, ?_⟩⟩
  · rw [readV_writeV_self, hzero, vecMat, accumulateRows_zero]
  · rw [readV_writeV_self, hunit, vecMat, accumulateRows_two_pow, if_pos hi, sub_one_sub_eq_revIndex]

/-! ## GF(2) sums -/

theorem xorSum_false (n : Nat) : xorSum (fun _ => false) n = false := by
  induction n with
  | zero => rfl
  | succ n ih => rw [xorSum, ih, Bool.xor_false]

theorem xorSum_xor (f g : Nat → Bool) (n : Nat) : xorSum (fun i => f i ^^ g i) n = (xorSum f n ^^ xorSum g n) := by
  induction n with
  | zero => rfl
  | succ n ih => rw [xorSum, xorSum, xorSum, ih, Bool.xor_assoc, Bool.xor_assoc, Bool.xor_left_comm (xorSum g n)]

theorem and_xorSum (a : Bool) (f : Nat → Bool) (n : Nat) : (a && xorSum f n) = xorSum (fun i => a && f i) n := by
  induction n with
  | zero => exact Bool.and_false a
  | succ n ih => rw [xorSum, xorSum, Bool.and_xor_distrib_left, ih]

/-- The order of a double sum over GF(2) may be exchanged. -/
theorem xorSum_comm (f : Nat → Nat → Bool) (m n : Nat) :
    xorSum (fun i => xorSum (f i) n) m = xorSum (fun j => xorSum (fun i => f i j) m) n := by
  induction m with
  | zero => exact (xorSum_false n).symm
  | succ m ih =>
    rw [xorSum, ih, ← xorSum_xor]
    rfl

/-! ## The two products agree -/

/-- The natural component of a raw position (R9). -/
theorem component_revIndex (x : Nat) {n j : Nat} (hj : j < n) : component n x (revIndex n j) = x.testBit j := by
  rw [component, revIndex_revIndex hj]

/-- R143: raw bit `d` of MVC's result is the GF(2) sum of the bits that row `N-1-d` and the vector share. -/
theorem testBit_matVec_of_lt (m : Memory) (b : Bank) (x : Nat) {n d : Nat} (hd : d < n) :
    (matVec m b n x).testBit d =
      xorSum (fun j => (matRead m b (revIndex n d)).testBit j && x.testBit j) n := by
  rw [← component_revIndex _ hd, component_matVec m b x (revIndex_lt hd)]

/-- `y·(M·x) = (y·M)·x` over GF(2): both are the double sum of `y_i M_ij x_j`, in the two orders (R144, R147). -/
theorem xorSum_matVec_eq_xorSum_vecMat (m : Memory) (b : Bank) (n x y : Nat) :
    xorSum (fun i => y.testBit i && (matVec m b n x).testBit i) n =
      xorSum (fun j => (vecMat m b n y).testBit j && x.testBit j) n := by
  calc xorSum (fun i => y.testBit i && (matVec m b n x).testBit i) n
      = xorSum (fun i => xorSum (fun j =>
          y.testBit i && ((matRead m b (revIndex n i)).testBit j && x.testBit j)) n) n :=
        xorSum_congr fun i hi => by rw [testBit_matVec_of_lt m b x hi, and_xorSum]
    _ = xorSum (fun j => xorSum (fun i =>
          y.testBit i && ((matRead m b (revIndex n i)).testBit j && x.testBit j)) n) n := xorSum_comm _ n n
    _ = xorSum (fun j => (vecMat m b n y).testBit j && x.testBit j) n :=
        xorSum_congr fun j _ => by
          rw [testBit_vecMat, Bool.and_comm, and_xorSum]
          simp only [Bool.and_comm, Bool.and_left_comm]

/-- Raw bit `d` of `A·(B·x)` is the sum over the bits that row `N-1-d` of `A·B`, as VMR computes it, shares with `x`. -/
theorem testBit_matVec_matVec (m : Memory) (a b : Bank) (x : Nat) {n d : Nat} (hd : d < n) :
    (matVec m a n (matVec m b n x)).testBit d =
      xorSum (fun j => (vecMat m b n (matRead m a (revIndex n d))).testBit j && x.testBit j) n := by
  rw [testBit_matVec_of_lt m a _ hd, xorSum_matVec_eq_xorSum_vecMat]

/-- Where row `N-1-d` of `A·B` and of `C` agree, so do raw bits `d` of `A·(B·x)` and of `C·x`. -/
theorem testBit_matVec_matVec_eq {m : Memory} {a b c : Bank} {n d : Nat} (hd : d < n)
    (hrow : ∀ j, j < n → (vecMat m b n (matRead m a (revIndex n d))).testBit j =
      (matRead m c (revIndex n d)).testBit j) (x : Nat) :
    (matVec m a n (matVec m b n x)).testBit d = (matVec m c n x).testBit d := by
  rw [testBit_matVec_matVec m a b x hd, testBit_matVec_of_lt m c x hd]
  exact xorSum_congr fun j hj => by rw [hrow j hj]

/-- Settles O38: if the rows agreed at every bit, `testBit_matVec_matVec_eq` would leave no difference to find. -/
theorem localizerFindsADifference : Obligations.LocalizerFindsADifference := by
  intro m n x d hd hdiff
  by_contra hnone
  simp only [not_exists, not_and, ne_eq, not_not, sub_one_sub_eq_revIndex] at hnone
  exact hdiff (testBit_matVec_matVec_eq hd hnone x)

/-- Settles O39: an entry of the exact product is a component of VMR's row, so every row of `A·B` is that of `C`. -/
theorem exactProductsPassEveryProbe : Obligations.ExactProductsPassEveryProbe := by
  intro m n x hexact
  have hrow : ∀ i j, i < n → j < n →
      (vecMat m .bankB n (matRead m .bankA i)).testBit j = (matRead m .bankC i).testBit j := by
    intro i j hi hj
    rw [← component_revIndex _ hj, component_vecMat, ← component_revIndex (matRead m .bankC i) hj]
    exact (hexact i _ hi (revIndex_lt hj)).symm
  refine Nat.eq_of_testBit_eq fun d => ?_
  by_cases hd : d < n
  · exact testBit_matVec_matVec_eq hd (fun j hj => hrow _ j (revIndex_lt hd) hj) x
  · have hhigh : ∀ b y, (matVec m b n y).testBit d = false := fun b y =>
      testBit_of_canonical (matVec_lt m b n y) (not_lt.mp hd)
    rw [hhigh, hhigh]

end Sys2Proof.Machine

/-!
PROOF. The example words of 30_encoding.md R84, the fields of STATUS (10_state.md R32), and what the host cannot read
(R26).
-/

namespace Sys2Proof.Machine

/-- Settles O9: each line is a spelling of the command beside its word. -/
theorem exampleWordsOfTheSpecDecode : Obligations.ExampleWordsOfTheSpecDecode :=
  ⟨by decide, by decide, ⟨.chex 0x43, by decide, by decide⟩, ⟨.mwr 0 3 7, by decide, by decide⟩,
    ⟨.vbit 1 0 2, by decide, by decide⟩⟩

/-! ## STATUS -/

theorem extractLsb'_statusWord_ecode (s : State) : (statusWord s).extractLsb' 4 4 = codeNumber s.ecode := by
  apply BitVec.eq_of_getLsbD_eq
  intro i hi
  simp only [statusWord, BitVec.getLsbD_extractLsb', BitVec.getLsbD_append]
  interval_cases i <;> simp

theorem extractLsb'_statusWord_high (s : State) : (statusWord s).extractLsb' 8 24 = 0 := by
  apply BitVec.eq_of_getLsbD_eq
  intro i hi
  simp only [statusWord, BitVec.getLsbD_extractLsb', BitVec.getLsbD_append]
  simp

/-- Settles O50: address 0 reads `statusWord`, whose fields are cut out of it. -/
theorem statusFieldsAreInTheirPlaces : Obligations.StatusFieldsAreInTheirPlaces := by
  intro s
  have hread : readRegister s 0 = statusWord s := rfl
  rw [hread, extractLsb'_statusWord_ecode, extractLsb'_statusWord_high]
  refine ⟨?_, ?_, ?_, ?_, ?_, rfl⟩
  case refine_5 =>
    cases s.ecode with
    | none => rfl
    | some c => cases c <;> rfl
  all_goals
    simp only [statusWord, BitVec.getLsbD_append]
    simp

/-- Settles O54: no address of R31's map names CACC. -/
theorem codecAccumulatorIsHidden : Obligations.CodecAccumulatorIsHidden := fun _ _ _ => rfl

end Sys2Proof.Machine
